-- ==== Sys2Proof/Config.lean ====
section
/-! DEFINITION. The parameters of the block (00_scope.md R7, 30_encoding.md R69). All but the tick period are constants of
the hardware, which no operation changes. The port widths `XLEN`, `RAW_W`, `OP_W` and `HIST_W` are the types of Word.lean. -/

namespace Sys2Proof.Config

/-- `ONE`: the integer that denotes 1.0 in fixed-point 1.15. -/
abbrev one : Int := 32768

/-- `FRAC`: the fractional bits of fixed-point 1.15, the shift amount of the fixed-point multiply. -/
abbrev frac : Nat := 15

/-- `DEB_N`: the consecutive high samples that assert `enabled`. -/
abbrev debN : Nat := 12

/-- `DEB_MASK`: the mask and compare value of `enabled`. -/
abbrev debMask : Nat := 0xFFF

/-- `RAW_LO`: the bottom of the calibrated raw range. -/
abbrev rawLo : Int := 120

/-- `RAW_HI`: the top of the calibrated raw range. -/
abbrev rawHi : Int := 4095

/-- `DEG_MAX`: the top of the hue scaling, in degrees. -/
abbrev degMax : Int := 360

/-- `DEG_PER_SECTOR`: the degrees of one sector. -/
abbrev degPerSector : Int := 60

/-- `BYTE_MAX`: the top of the channel scaling, and the alpha byte. -/
abbrev byteMax : Int := 255

/-- `HIST_RESET`: the value of `HIST` after reset (R29, D13). -/
abbrev histReset : BitVec 12 := 0

/-- `T_TICK`: the period between two DEBOUNCE operations, left OPEN by the spec (R7, 70_reset_and_hazards.md R222).
It has no value here, and no step reads it. -/
opaque tTick : Nat

/-- The time the switch must stay closed before `enabled` rises: twelve tick periods (43_switch_debounce.md R158). -/
def debounceTime : Nat := debN * tTick

end Sys2Proof.Config
end

