-- ==== Sys2Proof/Word.lean ====
section
/-! DEFINITION. The values on the block's ports and in its one register (30_encoding.md R62, 10_state.md R23), and one
command: the value of every input port at issue (30_encoding.md R63). -/

namespace Sys2Proof

/-- An integer operand port `A` to `E`, or the result port `Y`: 32 bits, read as signed by `toInt` (R13, R62). -/
abbrev PortWord := BitVec 32

/-- The raw sample port `RAW`: 16 bits, read as signed by `toInt` (R55, R62). -/
abbrev RawWord := BitVec 16

/-- The packed colour on port `Q`: 32 bits, read as unsigned (R60, R62). -/
abbrev Rgba := BitVec 32

/-- One byte of the packed colour (R60). -/
abbrev Byte := BitVec 8

/-- One sample of the switch pin: `1` is high, `0` is low (R61). -/
abbrev Pin := BitVec 1

/-- The history register `HIST`, `HIST_W = 12` bits (R23, D12). -/
abbrev Hist := BitVec 12

/-- One command: what the host puts on the input ports when it issues an operation (R62, R63). An operation ignores the
ports it does not use (R64), so a command has a value on all of them. -/
structure Command where
  op : BitVec 3
  a : PortWord
  b : PortWord
  c : PortWord
  d : PortWord
  e : PortWord
  raw : RawWord
  sw : Pin
  deriving DecidableEq, Repr

end Sys2Proof
end

