-- ==== Sys2Proof/Syntax.lean ====
section
/-! DEFINITION. The six operations of the block, one constructor per row of the opcode table (30_encoding.md R63, R67),
with the port values each one takes. An operand has its port's width, so it lies in its port's range (R65). -/

namespace Sys2Proof

/-- An operation with its operands, in the argument order of R63. -/
inductive Instr where
  /-- `FXMUL a, b` (R85): ports `A`, `B`. -/
  | fxmul (a b : PortWord)
  /-- `SCALE x, in_min, in_max, out_min, out_max` (R90): ports `A` to `E`. -/
  | scale (x inMin inMax outMin outMax : PortWord)
  /-- `RAW2HUE raw` (R105): port `RAW`. -/
  | raw2hue (raw : RawWord)
  /-- `RAW2UNIT raw` (R111): port `RAW`. -/
  | raw2unit (raw : RawWord)
  /-- `CONVERT huePrime, S, V` (R120): ports `A`, `B`, `C`. -/
  | convert (huePrime sat val : PortWord)
  /-- `DEBOUNCE sw` (R150): port `sw`. -/
  | debounce (sw : Pin)
  deriving DecidableEq, Repr

end Sys2Proof
end

