-- ==== Sys2Proof/Decode.lean ====
section
/-! DEFINITION. The operation codes (30_encoding.md R67, R68), decoding of a command into an operation and the encoder,
from the same operand table (R63). Beside them the layout of a command as one row of bits, which only the host's
numbering of the opcode table needs (log entry 5). -/

namespace Sys2Proof

/-- The six operation codes in use (R67). -/
inductive OpCode where
  | fxmul | scale | raw2hue | raw2unit | convert | debounce
  deriving DecidableEq, Repr

/-- Why a command selects no operation. -/
inductive DecodeError where
  /-- `op` is 6 or 7, a reserved code (R68). -/
  | reservedOp
  deriving DecidableEq, Repr

/-- The 3-bit code of an operation (R67). -/
def OpCode.bits : OpCode → BitVec 3
  | .fxmul => 0b000
  | .scale => 0b001
  | .raw2hue => 0b010
  | .raw2unit => 0b011
  | .convert => 0b100
  | .debounce => 0b101

/-- Reads an operation code; 6 and 7 are reserved (R67, R68). -/
def OpCode.ofBits (op : BitVec 3) : Except DecodeError OpCode :=
  match op.toNat with
  | 0 => .ok .fxmul
  | 1 => .ok .scale
  | 2 => .ok .raw2hue
  | 3 => .ok .raw2unit
  | 4 => .ok .convert
  | 5 => .ok .debounce
  | _ => .error .reservedOp

/-- The operation a code makes of the ports: each takes the ports R63 assigns it, and ignores the others (R64). -/
def OpCode.read (k : OpCode) (c : Command) : Instr :=
  match k with
  | .fxmul => .fxmul c.a c.b
  | .scale => .scale c.a c.b c.c c.d c.e
  | .raw2hue => .raw2hue c.raw
  | .raw2unit => .raw2unit c.raw
  | .convert => .convert c.a c.b c.c
  | .debounce => .debounce c.sw

/-- Decoding of a command. The code comes first: a reserved one is rejected without a look at the operands (R189). -/
def decode (c : Command) : Except DecodeError Instr :=
  match OpCode.ofBits c.op with
  | .ok k => .ok (k.read c)
  | .error e => .error e

/-- The code of an operation. -/
def opCodeOf : Instr → OpCode
  | .fxmul .. => .fxmul
  | .scale .. => .scale
  | .raw2hue .. => .raw2hue
  | .raw2unit .. => .raw2unit
  | .convert .. => .convert
  | .debounce .. => .debounce

/-- A command with zero on every operand port. -/
def bareCommand (k : OpCode) : Command :=
  { op := k.bits, a := 0, b := 0, c := 0, d := 0, e := 0, raw := 0, sw := 0 }

/-- The command that issues an operation (R63), with zero on the ports it does not use. -/
def encode (i : Instr) : Command :=
  match i with
  | .fxmul a b => { bareCommand .fxmul with a := a, b := b }
  | .scale x inMin inMax outMin outMax =>
      { bareCommand .scale with a := x, b := inMin, c := inMax, d := outMin, e := outMax }
  | .raw2hue raw => { bareCommand .raw2hue with raw := raw }
  | .raw2unit raw => { bareCommand .raw2unit with raw := raw }
  | .convert huePrime sat val => { bareCommand .convert with a := huePrime, b := sat, c := val }
  | .debounce sw => { bareCommand .debounce with sw := sw }

/-- The input ports. -/
inductive Port where
  | a | b | c | d | e | raw | sw
  deriving DecidableEq, Repr

/-- The pattern on an operand port, as an unsigned number. -/
def Command.pattern (c : Command) : Port → Nat
  | .a => c.a.toNat
  | .b => c.b.toNat
  | .c => c.c.toNat
  | .d => c.d.toNat
  | .e => c.e.toNat
  | .raw => c.raw.toNat
  | .sw => c.sw.toNat

/-- The operand ports an operation uses (R63). -/
def OpCode.ports : OpCode → List Port
  | .fxmul => [.a, .b]
  | .scale => [.a, .b, .c, .d, .e]
  | .raw2hue => [.raw]
  | .raw2unit => [.raw]
  | .convert => [.a, .b, .c]
  | .debounce => [.sw]

/-- A command read from one row of bits: `op` in bits 2 to 0 as the opcode table numbers it, and, the MODEL's own layout
(DESIGN CHOICE, log entry 5: the block has no such word), `A` to `E` from bit 8 up, then `RAW`, then `sw`.
Bits 7 to 3 belong to no port. -/
def Command.ofWord (w : Nat) : Command :=
  { op := BitVec.ofNat 3 w
    a := BitVec.ofNat 32 (w >>> 8)
    b := BitVec.ofNat 32 (w >>> 40)
    c := BitVec.ofNat 32 (w >>> 72)
    d := BitVec.ofNat 32 (w >>> 104)
    e := BitVec.ofNat 32 (w >>> 136)
    raw := BitVec.ofNat 16 (w >>> 168)
    sw := BitVec.ofNat 1 (w >>> 184) }

/-- The row of bits of a command, in the layout of `Command.ofWord`. -/
def Command.toWord (c : Command) : Nat :=
  c.op.toNat + 2 ^ 8 * (c.a.toNat + 2 ^ 32 * (c.b.toNat + 2 ^ 32 * (c.c.toNat + 2 ^ 32 * (c.d.toNat +
    2 ^ 32 * (c.e.toNat + 2 ^ 32 * (c.raw.toNat + 2 ^ 16 * c.sw.toNat))))))

/-- The command of an instruction whose lowest `nbits` bits are those of `w` and whose other bits are 0. -/
def tableCommand (nbits w : Nat) : Command :=
  Command.ofWord (w % 2 ^ nbits)

/-- What the decoder reads from an instruction numbered as spec/opcode_table.json numbers its bits. -/
def decodeTableWord (nbits w : Nat) : Option Instr :=
  (decode (tableCommand nbits w)).toOption

end Sys2Proof
end

