-- ==== Sys2Proof/Machine/Program.lean ====
section
/-! DEFINITION. The host's side of a run: the results it has been given (30_encoding.md R66, 70_reset_and_hazards.md R224),
the lines of its program (30_encoding.md R71, R73) and the pseudo-operation TICK (R72). Names stand for host-side values,
never for registers of the block (10_state.md R20). -/

namespace Sys2Proof.Machine

/-- A result as it leaves the block at an operation's completion: the port it appears on and the value there (R62, R66). -/
inductive Result where
  /-- A scalar result on `Y`: FXMUL, SCALE, RAW2HUE, RAW2UNIT. -/
  | y (v : PortWord)
  /-- A packed colour on `Q`: CONVERT. -/
  | q (v : Rgba)
  /-- The flag returned by DEBOUNCE. -/
  | enabled (e : Bool)
  deriving DecidableEq, Repr

/-- The number a result is for the host: `Y` signed, `Q` unsigned, `enabled` 1 or 0 (R13, R61). -/
def Result.value : Result → Int
  | .y v => v.toInt
  | .q v => v.toNat
  | .enabled e => if e then 1 else 0

/-- An operand of a line (R71): a numeral, or the value bound by an earlier line. The model names a line by its distance:
`name 0` is the latest result, `name 1` the one before it (DESIGN CHOICE, log entry 4). -/
inductive Operand where
  | num (v : Int)
  | name (back : Nat)
  deriving DecidableEq, Repr

/-- One line of a program: an operation in the textual form of R71, or a command given by its port patterns (R73),
which alone can hold a reserved code. -/
inductive Line where
  | fxmul (a b : Operand)
  | scale (x inMin inMax outMin outMax : Operand)
  | raw2hue (raw : Operand)
  | raw2unit (raw : Operand)
  | convert (huePrime sat val : Operand)
  | debounce (sw : Operand)
  | command (c : Command)
  deriving DecidableEq, Repr

/-- An operand as a line that stands `n` lines further down must write it: the same numeral, or the same earlier line. -/
def Operand.after (n : Nat) : Operand → Operand
  | .num v => .num v
  | .name back => .name (back + n)

/-- The five operations that `(q, e) = TICK raw_h, raw_s, raw_v, sw` stands for, in their fixed order
(30_encoding.md R72, 44_tick_macro.md R170). The operands are those of the TICK line, so the names among them are
counted from where that line stands. -/
def tickLines (rawH rawS rawV sw : Operand) : List Line :=
  [ .raw2hue rawH
  , .raw2unit (rawS.after 1)
  , .raw2unit (rawV.after 2)
  , .convert (.name 2) (.name 1) (.name 0)
  , .debounce (sw.after 4) ]

end Sys2Proof.Machine
end

