-- ==== Sys2Proof/Machine/State.lean ====
section
/-! DEFINITION. The state of the block, `HIST` and nothing else (10_state.md R33), with the two lists a run of it needs
(70_reset_and_hazards.md R224): the operations still to be issued and the results returned. Also why a step can stop. -/

namespace Sys2Proof.Machine

/-- The block and its host between two operations. -/
structure State where
  /-- `HIST`: bit `k` is the sample of the DEBOUNCE that ran `k` DEBOUNCE operations before the latest (R23, R24). -/
  hist : Hist
  /-- The MODEL's own: the results returned so far, newest first (R224, log entry 2). `Y` and `Q` are no state (R66). -/
  results : List Result
  /-- The MODEL's own: the host's lines not yet issued, next first (R21, R224, log entry 3). -/
  program : List Line
  deriving DecidableEq, Repr

/-- The hardware raises no exception of any kind: its table of causes is empty (60_exceptions.md R185), and so is this. -/
inductive Fault where
  deriving DecidableEq, Repr

/-- Why an operation has no step. None of these is a signal of the hardware (00_scope.md R15). -/
inductive Refusal where
  /-- No operation of the model raises this one: every row of the opcode table has its meaning. -/
  | notModelled (mnemonic : String)
  /-- Raised by decode: the code is 6 or 7 (R68, R187). Safe: the model has no step where an implementation does something. -/
  | reservedOp
  /-- Raised by SCALE: `in_max = in_min` (R92, R187). Safe, as above. -/
  | zeroSpan
  /-- Raised by FXMUL and SCALE: the exact result does not fit the 32-bit port `Y` (R88, R93, R187). Safe, as above. -/
  | resultOverflow
  /-- Raised at issue, by the host's line: an operand lies outside its port's range, so the line is no operation (R65).
  Safe: such a value cannot stand on the port. -/
  | operandRange
  /-- Raised at issue, by the host's line: a name that no earlier line binds, so the line is no operation (R71). Safe. -/
  | unboundName
  deriving DecidableEq, Repr

/-- The state right after reset: `HIST` is 0 (R29, R206), nothing has been returned and no operation waits. -/
def State.reset : State :=
  { hist := Config.histReset, results := [], program := [] }

end Sys2Proof.Machine
end

