-- ==== Sys2Proof/Machine/Operands.lean ====
section
/-! DEFINITION. From a host's line to the command on the ports: what an operand is worth (30_encoding.md R71) and whether
its port can carry it (R65). -/

namespace Sys2Proof.Machine

/-- The number an operand stands for, given the results so far (R71). -/
def operandValue (rs : List Result) : Operand → Except Refusal Int
  | .num v => .ok v
  | .name back =>
    match rs[back]? with
    | some r => .ok r.value
    | none => .error .unboundName

/-- Puts a number on a `w`-bit signed port, if the port can carry it (R65). -/
def driveSigned (w : Nat) (v : Int) : Except Refusal (BitVec w) :=
  if -2 ^ (w - 1) ≤ v ∧ v < 2 ^ (w - 1) then .ok (BitVec.ofInt w v) else .error .operandRange

/-- Puts a number on the one-bit port `sw`, if it is 0 or 1 (R65). -/
def driveBit (v : Int) : Except Refusal Pin :=
  if 0 ≤ v ∧ v ≤ 1 then .ok (BitVec.ofInt 1 v) else .error .operandRange

/-- The pattern of an operand on a signed port. -/
def signedOperand (w : Nat) (rs : List Result) (o : Operand) : Except Refusal (BitVec w) :=
  (operandValue rs o).bind (driveSigned w)

/-- The pattern of an operand on the port `sw`. -/
def bitOperand (rs : List Result) (o : Operand) : Except Refusal Pin :=
  (operandValue rs o).bind driveBit

/-- The command a line puts on the ports (R71, R73). -/
def present (rs : List Result) : Line → Except Refusal Command
  | .fxmul a b => do
    let a ← signedOperand 32 rs a
    let b ← signedOperand 32 rs b
    return encode (.fxmul a b)
  | .scale x inMin inMax outMin outMax => do
    let x ← signedOperand 32 rs x
    let inMin ← signedOperand 32 rs inMin
    let inMax ← signedOperand 32 rs inMax
    let outMin ← signedOperand 32 rs outMin
    let outMax ← signedOperand 32 rs outMax
    return encode (.scale x inMin inMax outMin outMax)
  | .raw2hue raw => do
    let raw ← signedOperand 16 rs raw
    return encode (.raw2hue raw)
  | .raw2unit raw => do
    let raw ← signedOperand 16 rs raw
    return encode (.raw2unit raw)
  | .convert huePrime sat val => do
    let huePrime ← signedOperand 32 rs huePrime
    let sat ← signedOperand 32 rs sat
    let val ← signedOperand 32 rs val
    return encode (.convert huePrime sat val)
  | .debounce sw => do
    let sw ← bitOperand rs sw
    return encode (.debounce sw)
  | .command c => .ok c

end Sys2Proof.Machine
end

