-- ==== Sys2Proof/Machine/Ops.lean ====
section
/-! DEFINITION. The operations every meaning is built from: exact integer arithmetic with its three fixed roundings
(30_encoding.md R75), the two fixed-point primitives (40_fixed_point_primitives.md R86, R91), returning a result, and
issuing the host's next line. The block takes no exception and returns from none (60_exceptions.md R185, R190), so there
is no such operation here. -/

namespace Sys2Proof.Machine

/-- What a meaning answers. -/
abbrev Answer := Host.Outcome State Fault Refusal

/-- The right shift by 15 that rounds toward minus infinity (00_scope.md R10). -/
def asr15 (v : Int) : Int :=
  v >>> Config.frac

/-- Division that rounds toward zero (00_scope.md R11). No meaning evaluates it with divisor 0 (R92). -/
def tdiv (n d : Int) : Int :=
  Int.tdiv n d

/-- The low eight bits of the two's-complement value (00_scope.md R12). -/
def trunc8 (v : Int) : Byte :=
  BitVec.ofInt 8 v

/-- Fixed-point multiply: the exact product, then the floor shift (R86). -/
def fxmul (a b : Int) : Int :=
  asr15 (a * b)

/-- Unclamped linear scaling, for `inMax ≠ inMin`: the exact product, one division toward zero, then the offset (R91).
SCALE looks at the span before it comes here, so no value is given to a span of 0 (R92). -/
def scaleLinear (x inMin inMax outMin outMax : Int) : Int :=
  tdiv ((x - inMin) * (outMax - outMin)) (inMax - inMin) + outMin

/-- Whether an exact result fits the signed 32-bit port `Y` (R66). -/
def fitsY (v : Int) : Bool :=
  decide (-2 ^ 31 ≤ v) && decide (v < 2 ^ 31)

/-- The completion of an operation: its result leaves the block, and the host keeps it (R66, R219). -/
def State.withResult (s : State) (r : Result) : State :=
  { s with results := r :: s.results }

/-- The write of `HIST`. -/
def State.withHist (s : State) (h : Hist) : State :=
  { s with hist := h }

/-- The host has issued its first line and goes on to the next (R21). -/
def State.withProgram (s : State) (p : List Line) : State :=
  { s with program := p }

/-- `return v on Y` of an operation whose exact result always fits the port (R109, R114). -/
def returnY (v : Int) (s : State) : Answer :=
  .next (s.withResult (.y (BitVec.ofInt 32 v)))

/-- `return v on Y` of an operation that is refused when its exact result does not fit the port (R88, R93). -/
def returnYChecked (v : Int) (s : State) : Answer :=
  if fitsY v then returnY v s else .refused .resultOverflow

/-- `return v on Q`. -/
def returnQ (v : Rgba) (s : State) : Answer :=
  .next (s.withResult (.q v))

/-- Decoding at issue, with the decoder's error as the block's refusal (R68). -/
def decodeAtIssue (c : Command) : Except Refusal Instr :=
  match decode c with
  | .ok i => .ok i
  | .error .reservedOp => .error .reservedOp

/-- The operation a line issues: the host puts the command on the ports, the block decodes it (R63). -/
def issue (rs : List Result) (l : Line) : Except Refusal Instr :=
  (present rs l).bind decodeAtIssue

end Sys2Proof.Machine
end

