-- ==== Sys2Proof/Machine/Convert.lean ====
section
/-! DEFINITION. CONVERT (42_hsv_to_rgba.md): hue-prime, saturation and value to a packed colour, in the seven steps the
source numbers. All arithmetic is exact over the integers (R134, R138). -/

namespace Sys2Proof.Machine

/-- The six sectors of hue, or none (R125, R126). -/
inductive Sector where
  | one | two | three | four | five | six | outOfRange
  deriving DecidableEq, Repr

/-- Step 1: the chroma `C` (R121). -/
def chroma (sat val : Int) : Int :=
  fxmul val sat

/-- Step 2: hue-prime modulo two sectors, never negative (R122, D8). -/
def hueMod (hp : Int) : Int :=
  hp % (2 * Config.one)

/-- Step 3: the triangular distance (R123). -/
def hueDist (hp : Int) : Int :=
  Config.one - ((hueMod hp - Config.one).natAbs : Int)

/-- Step 4: the second-largest component `X` (R124). -/
def secondComponent (hp sat val : Int) : Int :=
  fxmul (chroma sat val) (hueDist hp)

/-- Step 5, the choice: the first sector whose closed range holds the full hue-prime (R125, D9). -/
def sectorOf (hp : Int) : Sector :=
  if 0 ≤ hp ∧ hp ≤ Config.one then .one
  else if Config.one ≤ hp ∧ hp ≤ 2 * Config.one then .two
  else if 2 * Config.one ≤ hp ∧ hp ≤ 3 * Config.one then .three
  else if 3 * Config.one ≤ hp ∧ hp ≤ 4 * Config.one then .four
  else if 4 * Config.one ≤ hp ∧ hp ≤ 5 * Config.one then .five
  else if 5 * Config.one ≤ hp ∧ hp ≤ 6 * Config.one then .six
  else .outOfRange

/-- Step 5, the colour: red, green and blue of a sector from `C` and `X` (R125), all 0 out of range (R126). -/
def sectorColor (k : Sector) (chr x : Int) : Int × Int × Int :=
  match k with
  | .one => (chr, x, 0)
  | .two => (x, chr, 0)
  | .three => (0, chr, x)
  | .four => (0, x, chr)
  | .five => (x, 0, chr)
  | .six => (chr, 0, x)
  | .outOfRange => (0, 0, 0)

/-- Step 6: the offset `m` added to every channel (R128). -/
def colorOffset (sat val : Int) : Int :=
  val - chroma sat val

/-- Step 7a and 7b: a channel scaled to 255 and cut to its low eight bits, never clamped (R129, R130). -/
def channelByte (channel : Int) : Byte :=
  trunc8 (scaleLinear channel 0 Config.one 0 Config.byteMax)

/-- The layout of the packed colour (R43, R60). -/
def packRgba (r g b a : Byte) : Rgba :=
  (r.setWidth 32 <<< 24) ||| (g.setWidth 32 <<< 16) ||| (b.setWidth 32 <<< 8) ||| a.setWidth 32

/-- The red byte of a packed colour (R60). -/
def redByte (q : Rgba) : Byte :=
  q.extractLsb' 24 8

/-- The green byte of a packed colour (R60). -/
def greenByte (q : Rgba) : Byte :=
  q.extractLsb' 16 8

/-- The blue byte of a packed colour (R60). -/
def blueByte (q : Rgba) : Byte :=
  q.extractLsb' 8 8

/-- The alpha byte of a packed colour, which the host uses as brightness (R60). -/
def alphaByte (q : Rgba) : Byte :=
  q.extractLsb' 0 8

/-- The three channels after step 6 (R128). -/
def convertChannels (hp sat val : Int) : Int × Int × Int :=
  let c := sectorColor (sectorOf hp) (chroma sat val) (secondComponent hp sat val)
  let m := colorOffset sat val
  (c.1 + m, c.2.1 + m, c.2.2 + m)

/-- The function `convert` (R134); the alpha byte is 255 whatever the operands (R132). -/
def convert (hp sat val : Int) : Rgba :=
  let ch := convertChannels hp sat val
  packRgba (channelByte ch.1) (channelByte ch.2.1) (channelByte ch.2.2) (BitVec.ofInt 8 Config.byteMax)

/-- CONVERT (R120): pure, and never refused (R135, R138). -/
def execConvert (huePrime sat val : PortWord) (s : State) : Answer :=
  returnQ (convert huePrime.toInt sat.toInt val.toInt) s

end Sys2Proof.Machine
end

