-- ==== Sys2Proof/Machine/Flags.lean ====
section
/-! DEFINITION. The flag `enabled` and the update of the history register, for a history of any width `w` (10_state.md R25,
R27, 43_switch_debounce.md R151). The block has `w = 12`. -/

namespace Sys2Proof.Machine

/-- The new history: every sample moves one position up, the new one enters at bit 0, the bit that leaves the top is
lost (R151). -/
def histShift {w : Nat} (h : BitVec w) (sw : Pin) : BitVec w :=
  (h <<< 1) ||| sw.setWidth w

/-- `enabled` of a history: the masked compare of R25. -/
def histEnabled {w : Nat} (h : BitVec w) : Bool :=
  (h &&& BitVec.ofNat w Config.debMask) == BitVec.ofNat w Config.debMask

/-- The output port `enabled`: a function of `HIST`, at all times (R25, R26). -/
def State.enabled (s : State) : Bool :=
  histEnabled s.hist

end Sys2Proof.Machine
end

