-- ==== Sys2Proof/Machine/Debounce.lean ====
section
/-! DEFINITION. DEBOUNCE (43_switch_debounce.md): the only operation that writes state. -/

namespace Sys2Proof.Machine

/-- DEBOUNCE (R150): shifts the sample into `HIST`, then returns `enabled` of the history just written (R151, R152). -/
def execDebounce (sw : Pin) (s : State) : Answer :=
  let s' := s.withHist (histShift s.hist sw)
  .next (s'.withResult (.enabled s'.enabled))

end Sys2Proof.Machine
end

