-- ==== Sys2Proof/Machine/FixedPoint.lean ====
section
/-! DEFINITION. FXMUL and SCALE (40_fixed_point_primitives.md). Both are pure (R99). -/

namespace Sys2Proof.Machine

/-- FXMUL (R85). -/
def execFxmul (a b : PortWord) (s : State) : Answer :=
  returnYChecked (fxmul a.toInt b.toInt) s

/-- SCALE (R90): the span is tested before the result (R189). -/
def execScale (x inMin inMax outMin outMax : PortWord) (s : State) : Answer :=
  if inMax = inMin then .refused .zeroSpan
  else returnYChecked (scaleLinear x.toInt inMin.toInt inMax.toInt outMin.toInt outMax.toInt) s

end Sys2Proof.Machine
end

