-- ==== Sys2Proof/Machine/InputScaling.lean ====
section
/-! DEFINITION. RAW2HUE and RAW2UNIT (41_input_scaling.md): the scaling of a raw sample, never clamped (R107), never
refused (R187). -/

namespace Sys2Proof.Machine

/-- The degrees of a raw sample, an intermediate of RAW2HUE (30_encoding.md R58). -/
def rawDegrees (raw : Int) : Int :=
  scaleLinear raw Config.rawLo Config.rawHi 0 Config.degMax

/-- The function `raw2hue` (R106). -/
def raw2hue (raw : Int) : Int :=
  tdiv (rawDegrees raw * Config.one) Config.degPerSector

/-- The function `raw2unit` (R112). -/
def raw2unit (raw : Int) : Int :=
  scaleLinear raw Config.rawLo Config.rawHi 0 Config.one

/-- RAW2HUE (R105). -/
def execRaw2hue (raw : RawWord) (s : State) : Answer :=
  returnY (raw2hue raw.toInt) s

/-- RAW2UNIT (R111). -/
def execRaw2unit (raw : RawWord) (s : State) : Answer :=
  returnY (raw2unit raw.toInt) s

end Sys2Proof.Machine
end

