-- ==== Sys2Proof/Machine/Dispatch.lean ====
section
/-! DEFINITION. One arm per operation of the block (30_encoding.md R67). -/

namespace Sys2Proof.Machine

/-- Executes one operation. -/
def exec (i : Instr) (s : State) : Host.Outcome State Fault Refusal :=
  match i with
  | .fxmul a b => Sys2Proof.Machine.execFxmul a b s
  | .scale x inMin inMax outMin outMax => Sys2Proof.Machine.execScale x inMin inMax outMin outMax s
  | .raw2hue raw => Sys2Proof.Machine.execRaw2hue raw s
  | .raw2unit raw => Sys2Proof.Machine.execRaw2unit raw s
  | .convert huePrime sat val => Sys2Proof.Machine.execConvert huePrime sat val s
  | .debounce sw => Sys2Proof.Machine.execDebounce sw s

end Sys2Proof.Machine
end

