-- ==== Sys2Proof/Machine/Step.lean ====
section
/-! DEFINITION. One step: the host issues its next line and the block executes it (10_state.md R21,
70_reset_and_hazards.md R224). With nothing to issue the block holds its state (60_exceptions.md R192). -/

namespace Sys2Proof.Machine

/-- Issues the first line of the program, if there is one. A refused line ends the run and changes nothing (R187, R224). -/
def step (s : State) : Host.Outcome State Fault Refusal :=
  match s.program with
  | [] => .next s
  | l :: rest =>
    match issue s.results l with
    | .ok i => exec i (s.withProgram rest)
    | .error r => .refused r

/-- The state in which the host issues next the instruction whose bits the opcode table numbers as `w` (log entry 5). -/
def State.withFetchWord (s : State) (nbits w : Nat) : State :=
  { s with program := .command (tableCommand nbits w) :: s.program }

end Sys2Proof.Machine
end

