-- ==== Sys2Proof/Machine/Tick.lean ====
section
/-! DEFINITION. The pseudo-operation TICK as a function (44_tick_macro.md R173), beside its expansion `tickLines`. -/

namespace Sys2Proof.Machine

/-- What one TICK computes: the new history, the colour and the flag (R173). -/
def tick (h : Hist) (rawH rawS rawV : RawWord) (sw : Pin) : Hist × Rgba × Bool :=
  let h' := histShift h sw
  (h', convert (raw2hue rawH.toInt) (raw2unit rawS.toInt) (raw2unit rawV.toInt), histEnabled h')

end Sys2Proof.Machine
end

