-- ==== Sys2Proof/WellFormed.lean ====
section
/-! DEFINITION. When a host's line is well formed: every numeral lies in its port's range (30_encoding.md R65) and every
name is bound by an earlier line (R71). An `Instr` has its ports' widths in its type and needs no check. -/

namespace Sys2Proof.Machine

/-- A number that the `w`-bit signed port can carry (R65). -/
def inSigned (w : Nat) (v : Int) : Bool :=
  decide (-2 ^ (w - 1) ≤ v) && decide (v < 2 ^ (w - 1))

/-- A number that the one-bit port `sw` can carry (R65). -/
def inBit (v : Int) : Bool :=
  decide (0 ≤ v) && decide (v ≤ 1)

/-- An operand whose numeral passes the port's check, or whose name is one of the `bound` results at hand. What a name
stands for is known at issue only, and is checked there. -/
def Operand.wellFormed (fits : Int → Bool) (bound : Nat) : Operand → Bool
  | .num v => fits v
  | .name back => decide (back < bound)

/-- A line that can be written after `bound` results. -/
def Line.wellFormed (bound : Nat) : Line → Bool
  | .fxmul a b => a.wellFormed (inSigned 32) bound && b.wellFormed (inSigned 32) bound
  | .scale x inMin inMax outMin outMax =>
      x.wellFormed (inSigned 32) bound && inMin.wellFormed (inSigned 32) bound &&
      inMax.wellFormed (inSigned 32) bound && outMin.wellFormed (inSigned 32) bound &&
      outMax.wellFormed (inSigned 32) bound
  | .raw2hue raw => raw.wellFormed (inSigned 16) bound
  | .raw2unit raw => raw.wellFormed (inSigned 16) bound
  | .convert huePrime sat val =>
      huePrime.wellFormed (inSigned 32) bound && sat.wellFormed (inSigned 32) bound &&
      val.wellFormed (inSigned 32) bound
  | .debounce sw => sw.wellFormed inBit bound
  | .command _ => true

/-- A program that can be issued after `bound` results: each line binds one more name. -/
def programWellFormed : Nat → List Line → Bool
  | _, [] => true
  | bound, l :: rest => l.wellFormed bound && programWellFormed (bound + 1) rest

end Sys2Proof.Machine
end

