-- ==== Sys2Proof/Safety.lean ====
section
/-! DEFINITION. The terms claims are made in: the operands of a line at their ports, the flags a run has returned, the invariant of the machine, a run of
DEBOUNCE operations, and the same filter at any width. -/

namespace Sys2Proof.Machine

/-- An operand of a line, with the least and the greatest number that the port it goes to can carry (R65). -/
structure PortOperand where
  operand : Operand
  least : Int
  greatest : Int
  deriving DecidableEq, Repr

/-- An operand that goes to one of the ports `A` to `E`. -/
def PortOperand.word (o : Operand) : PortOperand :=
  { operand := o, least := -2147483648, greatest := 2147483647 }

/-- An operand that goes to the port `RAW`. -/
def PortOperand.sample (o : Operand) : PortOperand :=
  { operand := o, least := -32768, greatest := 32767 }

/-- An operand that goes to the port `sw`. -/
def PortOperand.pin (o : Operand) : PortOperand :=
  { operand := o, least := 0, greatest := 1 }

/-- The operands of a textual line, in the order of R63. A command has port patterns and no operands to resolve (R73). -/
def Line.operands : Line → List PortOperand
  | .fxmul a b => [.word a, .word b]
  | .scale x inMin inMax outMin outMax => [.word x, .word inMin, .word inMax, .word outMin, .word outMax]
  | .raw2hue raw => [.sample raw]
  | .raw2unit raw => [.sample raw]
  | .convert huePrime sat val => [.word huePrime, .word sat, .word val]
  | .debounce sw => [.pin sw]
  | .command _ => []

/-- The flag a result carries, if a DEBOUNCE returned it. -/
def Result.flag? : Result → Option Bool
  | .enabled e => some e
  | .y _ => none
  | .q _ => none

/-- The flags the DEBOUNCE operations of a run have returned, newest first. -/
def State.flags (s : State) : List Bool :=
  s.results.filterMap Result.flag?

/-- The invariant of the machine, kept by every step: every colour returned has alpha 255 (R132); the output `enabled` still
has the value the latest DEBOUNCE gave it (R26); and `HIST` holds the samples of the DEBOUNCE operations that have run, with
the reset value 0 in the positions above them (R24). -/
def State.Inv (s : State) : Prop :=
  (∀ v, Result.q v ∈ s.results → alphaByte v = 255#8) ∧
  (∀ e older, s.flags = e :: older → s.enabled = e) ∧
  s.hist.toNat < 2 ^ s.flags.length

/-- Runs DEBOUNCE on each sample in turn, the first of the list first. -/
def debounceAll : List Pin → State → Answer
  | [], s => .next s
  | sw :: rest, s =>
    match exec (.debounce sw) s with
    | .next s' => debounceAll rest s'
    | .fault f => .fault f
    | .refused r => .refused r

/-- The flags a filter with a `w`-bit history returns for a sequence of samples (R27). -/
def enabledTrace {w : Nat} (h : BitVec w) : List Pin → List Bool
  | [] => []
  | sw :: rest => histEnabled (histShift h sw) :: enabledTrace (histShift h sw) rest

end Sys2Proof.Machine
end

