-- ==== Sys2Proof/Certificates/Slice0/Obligations.lean ====
section
/-! DEFINITION. The statements about the block, in the order of the spec's files. A next state is written out in full, so
each completion statement is its instruction's frame too: of the three fields of State only the ones named change.
Exact arithmetic is written with the library's `Int.fdiv` (floor) and `Int.tdiv` (toward zero), not with the model's own
names. -/

open Sys2Proof Sys2Proof.Machine

/-! ## Decoding, issue and the step -/

/-- A step executes the instruction that the line at the head of the program issues; for a command by its port patterns that
is the decoded instruction. A line that issues none is refused. Around `exec` the step only takes the line off the program.
The program list is the model's form of the host (log entry 3). -/
def Obligations.StepRunsDecodedInstruction : Prop :=
  (∀ (s : State) (c : Command) (rest : List Line) (i : Instr),
    s.program = .command c :: rest → decode c = .ok i → step s = exec i { s with program := rest }) ∧
  (∀ (s : State) (l : Line) (rest : List Line) (i : Instr),
    s.program = l :: rest → issue s.results l = .ok i → step s = exec i { s with program := rest }) ∧
  (∀ (s : State) (l : Line) (rest : List Line) (r : Refusal),
    s.program = l :: rest → issue s.results l = .error r → step s = .refused r)

/-- While the host issues nothing the block holds its state (R192); that a step is then possible at all is the model's choice
(log entry 3). -/
def Obligations.IdleBlockHoldsState : Prop :=
  ∀ s : State, s.program = [] → step s = .next s

/-- The instruction placed by its table bits is the one the next step runs (log entry 5). -/
def Obligations.FetchWordRunsTableInstruction : Prop :=
  ∀ (s : State) (nbits w : Nat) (i : Instr),
    decodeTableWord nbits w = some i → step (s.withFetchWord nbits w) = exec i s

/-- A textual line issues its operation with each operand's value on the port R63 gives it, and is issued only if every
value lies in its port's range (R65, R71). A numeral is worth itself; a name is worth the result that many lines up, and
nothing where no line stands so far up (names by distance: log entry 4); and a result is worth its port as the host reads
it: `Y` signed, `Q` unsigned, `enabled` 0 or 1 (log entry 8). -/
def Obligations.TextualLineDrivesItsPorts : Prop :=
  (∀ rs oa ob i, issue rs (.fxmul oa ob) = .ok i ↔
    ∃ a b : PortWord, operandValue rs oa = .ok a.toInt ∧ operandValue rs ob = .ok b.toInt ∧ i = .fxmul a b) ∧
  (∀ rs oa ob oc od oe i, issue rs (.scale oa ob oc od oe) = .ok i ↔
    ∃ a b c d e : PortWord, operandValue rs oa = .ok a.toInt ∧ operandValue rs ob = .ok b.toInt ∧
      operandValue rs oc = .ok c.toInt ∧ operandValue rs od = .ok d.toInt ∧ operandValue rs oe = .ok e.toInt ∧
      i = .scale a b c d e) ∧
  (∀ rs o i, issue rs (.raw2hue o) = .ok i ↔
    ∃ raw : RawWord, operandValue rs o = .ok raw.toInt ∧ i = .raw2hue raw) ∧
  (∀ rs o i, issue rs (.raw2unit o) = .ok i ↔
    ∃ raw : RawWord, operandValue rs o = .ok raw.toInt ∧ i = .raw2unit raw) ∧
  (∀ rs oa ob oc i, issue rs (.convert oa ob oc) = .ok i ↔
    ∃ a b c : PortWord, operandValue rs oa = .ok a.toInt ∧ operandValue rs ob = .ok b.toInt ∧
      operandValue rs oc = .ok c.toInt ∧ i = .convert a b c) ∧
  (∀ rs o i, issue rs (.debounce o) = .ok i ↔
    ∃ sw : Pin, operandValue rs o = .ok (sw.toNat : Int) ∧ i = .debounce sw) ∧
  (∀ rs v, operandValue rs (.num v) = .ok v) ∧
  (∀ (newer older : List Result) (r : Result),
    operandValue (newer ++ r :: older) (.name newer.length) = .ok r.value) ∧
  (∀ (rs : List Result) (back : Nat), rs.length ≤ back → operandValue rs (.name back) = .error .unboundName) ∧
  (∀ v : PortWord, (Result.y v).value = v.toInt) ∧
  (∀ v : Rgba, (Result.q v).value = (v.toNat : Int)) ∧
  (Result.enabled true).value = 1 ∧ (Result.enabled false).value = 0

/-- A line that is well formed where it stands is never refused for an unbound name, and one whose operands are
well-formed numerals is never refused for a range (R65, R71). -/
def Obligations.WellFormedLineNotRefusedForNameOrNumeral : Prop :=
  (∀ (rs : List Result) (l : Line), l.wellFormed rs.length = true → issue rs l ≠ .error .unboundName) ∧
  (∀ (rs : List Result) (l : Line), l.wellFormed 0 = true → (∀ c, l ≠ .command c) →
    ∃ i : Instr, issue rs l = .ok i)

/-- A reserved code is refused, whatever stands on the operand ports, and the other six codes are not (R68). -/
def Obligations.ReservedCodesRefused : Prop :=
  (∀ (s : State) (c : Command) (rest : List Line), s.program = .command c :: rest →
    c.op = 6#3 ∨ c.op = 7#3 → step s = .refused .reservedOp) ∧
  (∀ c : Command, c.op ≠ 6#3 → c.op ≠ 7#3 → ∃ i : Instr, decode c = .ok i)

/-- Commands of the spec's programs P1, P4, P5 and P6 decode to the operations they stand for. -/
def Obligations.SpecCommandsDecode : Prop :=
  decode { op := 0, a := 0x00007530, b := 0x00004E20, c := 0, d := 0, e := 0, raw := 0, sw := 0 } =
    .ok (.fxmul 30000 20000) ∧
  decode { op := 1, a := 5, b := 3, c := 3, d := 0, e := 7, raw := 0, sw := 0 } = .ok (.scale 5 3 3 0 7) ∧
  decode { op := 2, a := 0, b := 0, c := 0, d := 0, e := 0, raw := 0x0078, sw := 0 } = .ok (.raw2hue 120) ∧
  decode { op := 3, a := 0, b := 0, c := 0, d := 0, e := 0, raw := 0x0FFF, sw := 0 } = .ok (.raw2unit 4095) ∧
  decode { op := 4, a := 0xFFFFEAAB, b := 0xFFFFFC23, c := 0xFFFFFC23, d := 0, e := 0, raw := 0, sw := 0 } =
    .ok (.convert (-5461) (-989) (-989)) ∧
  decode { op := 5, a := 0, b := 0, c := 0, d := 0, e := 0, raw := 0, sw := 1 } = .ok (.debounce 1)

/-- Decoding and encoding agree, through the whole row of bits: every operation, with every operand at every value, is read
back from its own bits; and a command that decodes carries the same code and the same patterns on the ports its
operation uses as the encoding does. The row of bits is the model's layout (log entry 5). -/
def Obligations.DecodeEncodeAgree : Prop :=
  (∀ i : Instr, decode (Command.ofWord (encode i).toWord) = .ok i) ∧
  (∀ (c : Command) (i : Instr), decode c = .ok i →
    (encode i).op = c.op ∧ ∀ p ∈ (opCodeOf i).ports, (encode i).pattern p = c.pattern p)

/-- The ports an operation does not use have no effect on what is executed, so none on the result or on `HIST`; in particular no
operation but DEBOUNCE samples `sw`, and none but DEBOUNCE shifts the history (R64). -/
def Obligations.UnusedPortsIgnored : Prop :=
  (∀ c c' : Command, c.op = c'.op →
    (∀ k, OpCode.ofBits c.op = .ok k → ∀ p ∈ k.ports, c.pattern p = c'.pattern p) →
    decode c = decode c' ∧
    ∀ (s : State) (rest : List Line),
      step { s with program := .command c :: rest } = step { s with program := .command c' :: rest }) ∧
  (∀ (c : Command) (sw : Pin), c.op ≠ 5#3 → decode { c with sw := sw } = decode c) ∧
  (∀ (s t : State) (c : Command) (rest : List Line), c.op ≠ 5#3 → s.program = .command c :: rest →
    step s = .next t → t.hist = s.hist)

/-! ## FXMUL and SCALE -/

/-- FXMUL: its code and operand ports; for a product that fits, the floor of the product over 32768 on `Y` and no other change;
`ResultOverflow` for every other product; and the corner cases and worked example of the rule (R85). -/
def Obligations.FxmulReturnsFloor : Prop :=
  (∀ c : Command, c.op = 0#3 → decode c = .ok (.fxmul c.a c.b)) ∧
  (∀ (a b : PortWord) (s : State), -2 ^ 46 ≤ a.toInt * b.toInt → a.toInt * b.toInt < 2 ^ 46 →
    ∃ y : PortWord, y.toInt = (a.toInt * b.toInt).fdiv 32768 ∧
      exec (.fxmul a b) s = .next { s with results := .y y :: s.results }) ∧
  (∀ (a b : PortWord) (s : State), a.toInt * b.toInt < -2 ^ 46 ∨ 2 ^ 46 ≤ a.toInt * b.toInt →
    exec (.fxmul a b) s = .refused .resultOverflow) ∧
  (∀ (a : PortWord) (s : State), exec (.fxmul a 32768) s = .next { s with results := .y a :: s.results } ∧
    exec (.fxmul a 0) s = .next { s with results := .y 0 :: s.results }) ∧
  (∀ s : State, exec (.fxmul 16384 16384) s = .next { s with results := .y 8192 :: s.results })

/-- The exact result of FXMUL fits `Y` exactly for products from -2^46 to 2^46 - 1, and the operation is refused outside them;
for nominal operands the result is nominal; for operands below 2^21 in magnitude the product is below 2^42 and the result
fits; with the examples of the rule (R88). -/
def Obligations.FxmulRangeExact : Prop :=
  (∀ (a b : PortWord) (s : State), exec (.fxmul a b) s = .refused .resultOverflow ↔
    ¬ (-2 ^ 46 ≤ a.toInt * b.toInt ∧ a.toInt * b.toInt < 2 ^ 46)) ∧
  (∀ (a b : PortWord) (s : State), 0 ≤ a.toInt → a.toInt ≤ 32768 → 0 ≤ b.toInt → b.toInt ≤ 32768 →
    ∃ y : PortWord, 0 ≤ y.toInt ∧ y.toInt ≤ 32768 ∧
      exec (.fxmul a b) s = .next { s with results := .y y :: s.results }) ∧
  (∀ (a b : PortWord) (s : State), |a.toInt| < 2 ^ 21 → |b.toInt| < 2 ^ 21 →
    |a.toInt * b.toInt| < 2 ^ 42 ∧ ∃ t : State, exec (.fxmul a b) s = .next t) ∧
  (∀ s : State, exec (.fxmul 2147483647 2) s = .next { s with results := .y 131071 :: s.results } ∧
    exec (.fxmul 0x80000000 32768) s = .next { s with results := .y 0x80000000 :: s.results } ∧
    exec (.fxmul 0x80000000 65536) s = .refused .resultOverflow ∧
    exec (.fxmul 65536 65536) s = .next { s with results := .y 131072 :: s.results })

/-- The function `fxmul` is the floor of the exact product over 32768, for all integers (R86), with the values of R87. -/
def Obligations.FxmulFunctionIsFloor : Prop :=
  (∀ a b : Int, fxmul a b = (a * b).fdiv 32768 ∧
    fxmul a b * 32768 ≤ a * b ∧ a * b < (fxmul a b + 1) * 32768) ∧
  fxmul (-1) 1 = -1 ∧ fxmul (-3) 16384 = -2 ∧ fxmul 3 16384 = 1 ∧ fxmul 1 1 = 0 ∧ fxmul (-989) (-989) = 29

/-- The laws of `fxmul` (R89, which the spec derives). -/
def Obligations.FxmulLaws : Prop :=
  (∀ a b : Int, fxmul a b = fxmul b a) ∧
  (∀ a : Int, fxmul a 32768 = a ∧ fxmul a 0 = 0 ∧ fxmul a 65536 = 2 * a) ∧
  (∀ a b : Int, 0 ≤ a → 0 ≤ b → b ≤ 32768 → 0 ≤ fxmul a b ∧ fxmul a b ≤ a) ∧
  (∀ a a' b : Int, 0 ≤ b → a ≤ a' → fxmul a b ≤ fxmul a' b) ∧
  fxmul (-(3 : Int)) 16384 ≠ -(fxmul 3 16384) ∧
  (∃ a b c : Int, fxmul (fxmul a b) c ≠ fxmul a (fxmul b c))

/-- SCALE: its code and operand ports; for a span that is not 0 and a result that fits, the exact product divided toward zero,
plus `out_min`, on `Y` and no other change; `ZeroSpan` for a span of 0, `ResultOverflow` for every other result; the ends
of the input range give the ends of the output range exactly, reversed ranges included; and the worked example (R90). -/
def Obligations.ScaleReturnsTruncatedQuotient : Prop :=
  (∀ c : Command, c.op = 1#3 → decode c = .ok (.scale c.a c.b c.c c.d c.e)) ∧
  (∀ (x inMin inMax outMin outMax : PortWord) (s : State) (v : Int), inMax.toInt ≠ inMin.toInt →
    v = ((x.toInt - inMin.toInt) * (outMax.toInt - outMin.toInt)).tdiv (inMax.toInt - inMin.toInt) + outMin.toInt →
    -2 ^ 31 ≤ v → v ≤ 2 ^ 31 - 1 →
    ∃ y : PortWord, y.toInt = v ∧
      exec (.scale x inMin inMax outMin outMax) s = .next { s with results := .y y :: s.results }) ∧
  (∀ (x inMin inMax outMin outMax : PortWord) (s : State) (v : Int), inMax.toInt ≠ inMin.toInt →
    v = ((x.toInt - inMin.toInt) * (outMax.toInt - outMin.toInt)).tdiv (inMax.toInt - inMin.toInt) + outMin.toInt →
    v < -2 ^ 31 ∨ 2 ^ 31 - 1 < v →
    exec (.scale x inMin inMax outMin outMax) s = .refused .resultOverflow) ∧
  (∀ (x inMin inMax outMin outMax : PortWord) (s : State), inMax.toInt = inMin.toInt →
    exec (.scale x inMin inMax outMin outMax) s = .refused .zeroSpan) ∧
  (∀ (inMin inMax outMin outMax : PortWord) (s : State), inMax ≠ inMin →
    exec (.scale inMin inMin inMax outMin outMax) s = .next { s with results := .y outMin :: s.results } ∧
    exec (.scale inMax inMin inMax outMin outMax) s = .next { s with results := .y outMax :: s.results }) ∧
  (∀ s : State, exec (.scale 16384 0 32768 0 255) s = .next { s with results := .y 127 :: s.results })

/-- SCALE with a span of 0 is refused as `ZeroSpan`, whatever the other operands (R92). -/
def Obligations.ScaleZeroSpanRefused : Prop :=
  ∀ (x inMin inMax outMin outMax : PortWord) (s : State), inMax.toInt = inMin.toInt →
    exec (.scale x inMin inMax outMin outMax) s = .refused .zeroSpan

/-- SCALE with a span that is not 0 is refused, as `ResultOverflow`, exactly when the exact value does not fit `Y`; with the
fixed arguments of the block's own three uses it never is (R93). -/
def Obligations.ScaleOverflowRefused : Prop :=
  (∀ (x inMin inMax outMin outMax : PortWord) (s : State), inMax.toInt ≠ inMin.toInt →
    (exec (.scale x inMin inMax outMin outMax) s = .refused .resultOverflow ↔
      ¬ (-2 ^ 31 ≤
          ((x.toInt - inMin.toInt) * (outMax.toInt - outMin.toInt)).tdiv (inMax.toInt - inMin.toInt) + outMin.toInt ∧
        ((x.toInt - inMin.toInt) * (outMax.toInt - outMin.toInt)).tdiv (inMax.toInt - inMin.toInt) + outMin.toInt <
          2 ^ 31))) ∧
  (∀ (x : PortWord) (s : State), -32768 ≤ x.toInt → x.toInt ≤ 32767 →
    (∃ t, exec (.scale x 120 4095 0 360) s = .next t) ∧ (∃ t, exec (.scale x 120 4095 0 32768) s = .next t)) ∧
  (∀ (x : PortWord) (s : State), ∃ t, exec (.scale x 0 32768 0 255) s = .next t)

/-- `scale_linear` is non-decreasing in `x` for ranges that are not reversed (R98, which the spec derives). -/
def Obligations.ScaleMonotone : Prop :=
  ∀ x x' inMin inMax outMin outMax : Int, inMin < inMax → outMin ≤ outMax → x ≤ x' →
    scaleLinear x inMin inMax outMin outMax ≤ scaleLinear x' inMin inMax outMin outMax

/-- The quotient of `scale_linear` is rounded toward zero before `out_min` is added: times the span it has the sign of the
exact product, is no larger, and falls short of it by less than the span; in the channel scaling the inputs from -128 to
128 and no others give 0; with the values of the rule (R96). -/
def Obligations.ScaleRoundsTowardZero : Prop :=
  (∀ x inMin inMax outMin outMax : Int, inMax ≠ inMin →
    ∃ q : Int, scaleLinear x inMin inMax outMin outMax = q + outMin ∧
      0 ≤ q * (inMax - inMin) * ((x - inMin) * (outMax - outMin)) ∧
      |q * (inMax - inMin)| ≤ |(x - inMin) * (outMax - outMin)| ∧
      |(x - inMin) * (outMax - outMin)| < |q * (inMax - inMin)| + |inMax - inMin|) ∧
  (∀ v : Int, scaleLinear v 0 32768 0 255 = 0 ↔ -128 ≤ v ∧ v ≤ 128) ∧
  scaleLinear 7 0 2 0 1 = 3 ∧ scaleLinear (-7) 0 2 0 1 = -3 ∧ scaleLinear 3 0 4 10 13 = 12 ∧
  scaleLinear (-3) 0 4 10 13 = 8 ∧ scaleLinear (-100) 0 32768 0 255 = 0 ∧ scaleLinear (-128) 0 32768 0 255 = 0 ∧
  scaleLinear (-129) 0 32768 0 255 = -1

/-- `scale_linear` is not clamped: above the input range the result is no less than `out_max`, and greater as soon as the excess
is worth one count of output; below it likewise under `out_min`; with the values of the rule (R94). -/
def Obligations.ScaleExtrapolates : Prop :=
  (∀ x inMin inMax outMin outMax : Int, inMin < inMax → outMin ≤ outMax → inMax < x →
    outMax ≤ scaleLinear x inMin inMax outMin outMax ∧
    (inMax - inMin ≤ (x - inMax) * (outMax - outMin) → outMax < scaleLinear x inMin inMax outMin outMax)) ∧
  (∀ x inMin inMax outMin outMax : Int, inMin < inMax → outMin ≤ outMax → x < inMin →
    scaleLinear x inMin inMax outMin outMax ≤ outMin ∧
    (inMax - inMin ≤ (inMin - x) * (outMax - outMin) → scaleLinear x inMin inMax outMin outMax < outMin)) ∧
  scaleLinear 40000 0 32768 0 255 = 311 ∧ scaleLinear (-989) 0 32768 0 255 = -7 ∧
  scaleLinear 0 120 4095 0 32768 = -989 ∧ scaleLinear 5000 120 4095 0 360 = 441 ∧
  scaleLinear 15 0 10 100 200 = 250 ∧ scaleLinear (-5) 0 10 100 200 = 50 ∧
  scaleLinear 32769 0 32768 0 255 = 255 ∧ scaleLinear (-100) 0 32768 0 255 = 0

/-- `tdiv` is the exact quotient rounded toward zero: times the divisor it has the numerator's sign, is no larger and falls
short of it by less than the divisor; with the values of the rule (R11). -/
def Obligations.TruncatingDivision : Prop :=
  (∀ n d : Int, d ≠ 0 → 0 ≤ tdiv n d * d * n ∧ |tdiv n d * d| ≤ |n| ∧ |n| < |tdiv n d * d| + |d|) ∧
  tdiv 7 2 = 3 ∧ tdiv (-7) 2 = -3 ∧ tdiv 7 (-2) = -3 ∧ tdiv (-7) (-2) = 3

/-- FXMUL and SCALE read no state and write none: the same operands give the same refusal in every state, or the same
result in every state (R99). -/
def Obligations.FixedPointPrimitivesArePure : Prop :=
  (∀ a b : PortWord, (∃ r, ∀ s : State, exec (.fxmul a b) s = .refused r) ∨
    (∃ y, ∀ s : State, exec (.fxmul a b) s = .next { s with results := .y y :: s.results })) ∧
  (∀ x inMin inMax outMin outMax : PortWord,
    (∃ r, ∀ s : State, exec (.scale x inMin inMax outMin outMax) s = .refused r) ∨
    (∃ y, ∀ s : State,
      exec (.scale x inMin inMax outMin outMax) s = .next { s with results := .y y :: s.results }))

/-! ## RAW2HUE and RAW2UNIT -/

/-- RAW2HUE: its code and operand port; it completes for every sample, with the hue-prime of the formula on `Y`, in every state
the same, and no other change; and the corner cases and worked example of the rule (R105, R106). -/
def Obligations.Raw2hueReturnsHuePrime : Prop :=
  (∀ c : Command, c.op = 2#3 → decode c = .ok (.raw2hue c.raw)) ∧
  (∀ raw : RawWord, ∃ y : PortWord,
    y.toInt = ((((raw.toInt - 120) * 360).tdiv 3975) * 32768).tdiv 60 ∧
    (raw.toInt < 109 ↔ y.toInt < 0) ∧ (4106 < raw.toInt ↔ 196608 < y.toInt) ∧
    ∀ s : State, exec (.raw2hue raw) s = .next { s with results := .y y :: s.results }) ∧
  (∀ raw : Int, raw2hue raw = ((((raw - 120) * 360).tdiv 3975) * 32768).tdiv 60) ∧
  raw2hue 120 = 0 ∧ raw2hue 4095 = 196608 ∧ raw2hue 2108 = 98304

/-- The ranges of RAW2HUE: degrees, result and intermediates for every sample, and the result for nominal samples (R109, where
the spec derives the bound 2^27 on the intermediates from the formula). -/
def Obligations.Raw2hueRange : Prop :=
  ∀ (raw : RawWord) (s : State), ∃ y : PortWord,
    exec (.raw2hue raw) s = .next { s with results := .y y :: s.results } ∧
    -2978 ≤ rawDegrees raw.toInt ∧ rawDegrees raw.toInt ≤ 2956 ∧
    -1626385 ≤ y.toInt ∧ y.toInt ≤ 1614370 ∧
    |(raw.toInt - 120) * 360| < 2 ^ 27 ∧ |rawDegrees raw.toInt * 32768| < 2 ^ 27 ∧
    (0 ≤ raw.toInt → raw.toInt ≤ 4095 → -5461 ≤ y.toInt ∧ y.toInt ≤ 196608)

/-- Raw samples are neither clamped nor rejected: below 120 the degrees are at most 0, above 4095 at least 360, and RAW2HUE and
RAW2UNIT complete for every sample; with the values of the rule (R107). -/
def Obligations.RawSamplesNotClamped : Prop :=
  (∀ raw : Int, raw < 120 → rawDegrees raw ≤ 0) ∧ (∀ raw : Int, 4095 < raw → 360 ≤ rawDegrees raw) ∧
  (∀ (raw : RawWord) (s : State), ∃ t : State, exec (.raw2hue raw) s = .next t) ∧
  (∀ (raw : RawWord) (s : State), ∃ t : State, exec (.raw2unit raw) s = .next t) ∧
  raw2hue 0 = -5461 ∧ raw2hue 5000 = 240844 ∧ raw2hue (-100) = -10376

/-- Hue-prime is a sector boundary exactly when the degrees are a multiple of 60 (R108), and lies in the closed range of
hues exactly for the samples 109 to 4106 (R105, R110). -/
def Obligations.Raw2hueBoundaries : Prop :=
  (∀ raw : Int, (32768 ∣ raw2hue raw) ↔ (60 ∣ rawDegrees raw)) ∧
  (∀ raw : Int, (0 ≤ raw2hue raw ∧ raw2hue raw ≤ 196608) ↔ (109 ≤ raw ∧ raw ≤ 4106))

/-- RAW2UNIT: its code and operand port; it completes for every sample, with the fraction of the formula on `Y`, in every state
the same, and no other change; only the sample 120 gives 0; and the values of the rules (R111, R112). -/
def Obligations.Raw2unitReturnsFraction : Prop :=
  (∀ c : Command, c.op = 3#3 → decode c = .ok (.raw2unit c.raw)) ∧
  (∀ raw : RawWord, ∃ y : PortWord, y.toInt = ((raw.toInt - 120) * 32768).tdiv 3975 ∧
    (y.toInt = 0 ↔ raw.toInt = 120) ∧ (y.toInt < 0 ↔ raw.toInt < 120) ∧ (32768 < y.toInt ↔ 4095 < raw.toInt) ∧
    ∀ s : State, exec (.raw2unit raw) s = .next { s with results := .y y :: s.results }) ∧
  (∀ raw : Int, raw2unit raw = ((raw - 120) * 32768).tdiv 3975) ∧
  raw2unit 4095 = 32768 ∧ raw2unit 2107 = 16379 ∧ raw2unit 0 = -989 ∧ raw2unit (-1) = -997 ∧
  raw2unit 4096 = 32776 ∧ raw2unit 5000 = 40228 ∧ raw2unit 119 = -8 ∧ raw2unit 121 = 8

/-- The range of RAW2UNIT, for every sample and for nominal ones, and of its intermediate (R114, where the spec derives the
range and the bound 1077673984 from the formula). -/
def Obligations.Raw2unitRange : Prop :=
  ∀ (raw : RawWord) (s : State), ∃ y : PortWord,
    exec (.raw2unit raw) s = .next { s with results := .y y :: s.results } ∧
    -271112 ≤ y.toInt ∧ y.toInt ≤ 269126 ∧
    |(raw.toInt - 120) * 32768| ≤ 1077673984 ∧
    (0 ≤ raw.toInt → raw.toInt ≤ 4095 → -989 ≤ y.toInt ∧ y.toInt ≤ 32768)

/-! ## CONVERT -/

/-- CONVERT: its code and operand ports; it completes for every operand triple with the colour of the seven steps on `Q` and no
other change. Each step is written out on integers, and the colour is the sum of its four bytes at their places; with
the worked example of the rule (R120, whose function is R134). -/
def Obligations.ConvertFollowsSevenSteps : Prop :=
  (∀ c : Command, c.op = 4#3 → decode c = .ok (.convert c.a c.b c.c)) ∧
  (∀ (huePrime sat val : PortWord) (s : State), ∃ (q : Rgba) (chr hm hd x m r g b : Int),
    exec (.convert huePrime sat val) s = .next { s with results := .q q :: s.results } ∧
    chr = (val.toInt * sat.toInt).fdiv 32768 ∧
    hm = huePrime.toInt % 65536 ∧
    hd = 32768 - |hm - 32768| ∧
    x = (chr * hd).fdiv 32768 ∧
    (r, g, b) =
      (if 0 ≤ huePrime.toInt ∧ huePrime.toInt ≤ 32768 then (chr, x, 0)
       else if 32768 ≤ huePrime.toInt ∧ huePrime.toInt ≤ 65536 then (x, chr, 0)
       else if 65536 ≤ huePrime.toInt ∧ huePrime.toInt ≤ 98304 then (0, chr, x)
       else if 98304 ≤ huePrime.toInt ∧ huePrime.toInt ≤ 131072 then (0, x, chr)
       else if 131072 ≤ huePrime.toInt ∧ huePrime.toInt ≤ 163840 then (x, 0, chr)
       else if 163840 ≤ huePrime.toInt ∧ huePrime.toInt ≤ 196608 then (chr, 0, x)
       else (0, 0, 0)) ∧
    m = val.toInt - chr ∧
    (q.toNat : Int) =
      ((r + m) * 255).tdiv 32768 % 256 * 2 ^ 24 + ((g + m) * 255).tdiv 32768 % 256 * 2 ^ 16 +
        ((b + m) * 255).tdiv 32768 % 256 * 2 ^ 8 + 255) ∧
  (∀ s : State, exec (.convert 10000 20000 30000) s = .next { s with results := .q 0xE9865AFF :: s.results })

/-- The sector table, on the full signed hue-prime: each row holds on its whole closed range, so where two ranges meet both rows
give the colour; outside 0 to 196608 all three components are 0 (R125). -/
def Obligations.SectorTableClosedRanges : Prop :=
  ∀ hp sat val chr x : Int, chr = chroma sat val → x = secondComponent hp sat val →
    (0 ≤ hp → hp ≤ 32768 → sectorColor (sectorOf hp) chr x = (chr, x, 0)) ∧
    (32768 ≤ hp → hp ≤ 65536 → sectorColor (sectorOf hp) chr x = (x, chr, 0)) ∧
    (65536 ≤ hp → hp ≤ 98304 → sectorColor (sectorOf hp) chr x = (0, chr, x)) ∧
    (98304 ≤ hp → hp ≤ 131072 → sectorColor (sectorOf hp) chr x = (0, x, chr)) ∧
    (131072 ≤ hp → hp ≤ 163840 → sectorColor (sectorOf hp) chr x = (x, 0, chr)) ∧
    (163840 ≤ hp → hp ≤ 196608 → sectorColor (sectorOf hp) chr x = (chr, 0, x)) ∧
    (hp < 0 ∨ 196608 < hp → sectorColor (sectorOf hp) chr x = (0, 0, 0))

/-- A hue outside 0 to 196608 gives a grey: the three colour bytes are all the scaled `V - C`, and alpha is 255; with the values
of the rule (R126). -/
def Obligations.OutOfRangeHueIsGrey : Prop :=
  (∀ (huePrime sat val : PortWord) (s : State), huePrime.toInt < 0 ∨ 196608 < huePrime.toInt →
    ∃ grey : Byte,
      grey = BitVec.ofInt 8 (((val.toInt - (val.toInt * sat.toInt).fdiv 32768) * 255).tdiv 32768) ∧
      exec (.convert huePrime sat val) s =
        .next { s with results := .q (grey ++ grey ++ grey ++ 255#8) :: s.results }) ∧
  convert 196609 32768 32768 = 0x000000FF ∧ convert (-1) 32768 32768 = 0x000000FF ∧
  convert 300000 16384 32768 = 0x7F7F7FFF

/-- The boundary table: at every multiple of 32768 both adjoining sectors give the same colour from `C`, for any saturation and
value; the colours at full saturation and value; and hue-prime 196608 gives what 0 gives, for every operand pair (R127). -/
def Obligations.BoundaryColoursAgree : Prop :=
  (∀ sat val chr : Int, chr = chroma sat val →
    sectorColor .one chr (secondComponent 0 sat val) = (chr, 0, 0) ∧
    sectorColor .one chr (secondComponent 32768 sat val) = (chr, chr, 0) ∧
    sectorColor .two chr (secondComponent 32768 sat val) = (chr, chr, 0) ∧
    sectorColor .two chr (secondComponent 65536 sat val) = (0, chr, 0) ∧
    sectorColor .three chr (secondComponent 65536 sat val) = (0, chr, 0) ∧
    sectorColor .three chr (secondComponent 98304 sat val) = (0, chr, chr) ∧
    sectorColor .four chr (secondComponent 98304 sat val) = (0, chr, chr) ∧
    sectorColor .four chr (secondComponent 131072 sat val) = (0, 0, chr) ∧
    sectorColor .five chr (secondComponent 131072 sat val) = (0, 0, chr) ∧
    sectorColor .five chr (secondComponent 163840 sat val) = (chr, 0, chr) ∧
    sectorColor .six chr (secondComponent 163840 sat val) = (chr, 0, chr) ∧
    sectorColor .six chr (secondComponent 196608 sat val) = (chr, 0, 0)) ∧
  (hueDist 0 = 0 ∧ hueDist 32768 = 32768 ∧ hueDist 65536 = 0 ∧ hueDist 98304 = 32768 ∧ hueDist 131072 = 0 ∧
    hueDist 163840 = 32768 ∧ hueDist 196608 = 0) ∧
  (convert 0 32768 32768 = 0xFF0000FF ∧ convert 32768 32768 32768 = 0xFFFF00FF ∧
    convert 65536 32768 32768 = 0x00FF00FF ∧ convert 98304 32768 32768 = 0x00FFFFFF ∧
    convert 131072 32768 32768 = 0x0000FFFF ∧ convert 163840 32768 32768 = 0xFF00FFFF ∧
    convert 196608 32768 32768 = 0xFF0000FF) ∧
  (∀ (sat val : PortWord) (s : State), exec (.convert 196608 sat val) s = exec (.convert 0 sat val) s)

/-- With saturation 0 the colour is the grey of `V`, for every hue, in range or not; with the values of the rule (R139). -/
def Obligations.ZeroSaturationIsGrey : Prop :=
  (∀ (huePrime val : PortWord) (s : State), ∃ grey : Byte,
    grey = BitVec.ofInt 8 ((val.toInt * 255).tdiv 32768) ∧
    chroma 0 val.toInt = 0 ∧ secondComponent huePrime.toInt 0 val.toInt = 0 ∧
    exec (.convert huePrime 0 val) s =
      .next { s with results := .q (grey ++ grey ++ grey ++ 255#8) :: s.results }) ∧
  convert 0 0 32768 = 0xFFFFFFFF ∧ convert 0 0 16384 = 0x7F7F7FFF ∧ convert 123456 0 12345 = 0x606060FF ∧
  convert 500000 0 32768 = 0xFFFFFFFF

/-- With value 0 the colour is black, for every hue and saturation (R140, which the spec derives). -/
def Obligations.ZeroValueIsBlack : Prop :=
  ∀ (huePrime sat : PortWord) (s : State),
    exec (.convert huePrime sat 0) s = .next { s with results := .q 0x000000FF :: s.results }

/-- The pure-red case, with its intermediates (R141). -/
def Obligations.PureRed : Prop :=
  chroma 32768 32768 = 32768 ∧ hueMod 0 = 0 ∧ hueDist 0 = 0 ∧ secondComponent 0 32768 32768 = 0 ∧
  sectorOf 0 = .one ∧ colorOffset 32768 32768 = 0 ∧
  ∀ s : State, exec (.convert 0 32768 32768) s = .next { s with results := .q 0xFF0000FF :: s.results }

/-- The alpha byte of every colour is 255, and its other bytes are the reduced channels in the order red, green, blue
(R132). -/
def Obligations.ConvertAlphaFixed : Prop :=
  ∀ (huePrime sat val : PortWord) (s : State), ∃ (q : Rgba) (r g b : Int),
    exec (.convert huePrime sat val) s = .next { s with results := .q q :: s.results } ∧
    (r, g, b) = convertChannels huePrime.toInt sat.toInt val.toInt ∧
    q.toNat = (channelByte r).toNat * 2 ^ 24 + (channelByte g).toNat * 2 ^ 16 + (channelByte b).toNat * 2 ^ 8 + 255 ∧
    redByte q = channelByte r ∧ greenByte q = channelByte g ∧ blueByte q = channelByte b ∧ alphaByte q = 255#8

/-- A channel is scaled by 255 over 32768 toward zero, whatever its size, and cut to its low eight bits: nothing is clamped;
with the values of the rules (R129, R130). -/
def Obligations.ChannelScaledAndCut : Prop :=
  (∀ ch : Int, scaleLinear ch 0 32768 0 255 = (ch * 255).tdiv 32768 ∧
    ((channelByte ch).toNat : Int) = (ch * 255).tdiv 32768 % 256) ∧
  (∀ v : Int, ((trunc8 v).toNat : Int) = v % 256) ∧
  (∀ v ∈ [((32768 : Int), (255 : Int)), (32767, 254), (16384, 127), (128, 0), (129, 1), (0, 0), (-128, 0), (-129, -1),
    (40000, 311)], scaleLinear v.1 0 32768 0 255 = v.2) ∧
  (∀ v ∈ [((255 : Int), (255 : Nat)), (256, 0), (311, 55), (262, 6), (-1, 255), (-7, 249), (-56, 200)],
    (trunc8 v.1).toNat = v.2)

/-- The layout of RGBA8 and its inverse: the fields never overlap (R60, R43). -/
def Obligations.PackedColourLayout : Prop :=
  ∀ r g b a : Byte,
    (packRgba r g b a).toNat = r.toNat * 2 ^ 24 + g.toNat * 2 ^ 16 + b.toNat * 2 ^ 8 + a.toNat ∧
    (packRgba r g b a).extractLsb' 24 8 = r ∧ (packRgba r g b a).extractLsb' 16 8 = g ∧
    (packRgba r g b a).extractLsb' 8 8 = b ∧ (packRgba r g b a).extractLsb' 0 8 = a

/-- CONVERT depends on no state: its operands alone decide the colour, which every state returns (R135). -/
def Obligations.ConvertIsPure : Prop :=
  ∀ huePrime sat val : PortWord, ∃ q : Rgba, ∀ s : State,
    exec (.convert huePrime sat val) s = .next { s with results := .q q :: s.results }

/-- The chroma, the triangular distance and the second component: what each is, its bounds and its sign (R121, R123, R124). -/
def Obligations.ConvertComponentBounds : Prop :=
  (∀ sat val : Int, chroma sat val = (val * sat).fdiv 32768 ∧
    (0 ≤ sat → sat ≤ 32768 → 0 ≤ val → val ≤ 32768 →
      0 ≤ chroma sat val ∧ chroma sat val ≤ val ∧ chroma sat val ≤ sat) ∧
    (chroma sat val < 0 ↔ (sat < 0 ∧ 0 < val) ∨ (0 < sat ∧ val < 0))) ∧
  (∀ hp : Int, hueDist hp = 32768 - |hueMod hp - 32768| ∧ 0 ≤ hueDist hp ∧ hueDist hp ≤ 32768 ∧
    0 ≤ hueMod hp ∧ hueMod hp ≤ 65535 ∧
    hueDist hp = if hueMod hp ≤ 32768 then hueMod hp else 65536 - hueMod hp) ∧
  (∀ hp sat val : Int,
    secondComponent hp sat val = (chroma sat val * hueDist hp).fdiv 32768 ∧
    (0 ≤ chroma sat val → 0 ≤ secondComponent hp sat val ∧ secondComponent hp sat val ≤ chroma sat val) ∧
    (chroma sat val < 0 → 0 < hueDist hp →
      chroma sat val ≤ secondComponent hp sat val ∧ secondComponent hp sat val ≤ -1) ∧
    (hueDist hp = 0 → secondComponent hp sat val = 0) ∧
    (hueDist hp = 32768 → secondComponent hp sat val = chroma sat val)) ∧
  chroma (-989) (-989) = 29 ∧ secondComponent (-5461) 32768 (-989) = -165

/-- In-range operands: every channel lies between `V - C` and `V`, some channel is exactly each of the two, and every byte is the
scaled channel itself, with no wrap (R136, which the spec derives). -/
def Obligations.InRangeColourDoesNotWrap : Prop :=
  ∀ hp sat val : Int, 0 ≤ hp → hp ≤ 196608 → 0 ≤ sat → sat ≤ 32768 → 0 ≤ val → val ≤ 32768 →
    ∃ r g b : Int, (r, g, b) = convertChannels hp sat val ∧
    (∀ ch ∈ [r, g, b], colorOffset sat val ≤ ch ∧ ch ≤ val ∧
      ((channelByte ch).toNat : Int) = (ch * 255).tdiv 32768) ∧
    val ∈ [r, g, b] ∧ colorOffset sat val ∈ [r, g, b]

/-- For operands on the ports every intermediate of CONVERT fits 64 bits signed (R138, where the spec derives the bounds). -/
def Obligations.ConvertIntermediatesFit : Prop :=
  ∀ huePrime sat val : PortWord, ∃ r g b : Int,
    (r, g, b) = convertChannels huePrime.toInt sat.toInt val.toInt ∧
    |val.toInt * sat.toInt| ≤ 2 ^ 62 ∧ |chroma sat.toInt val.toInt| ≤ 2 ^ 47 ∧
    |chroma sat.toInt val.toInt * hueDist huePrime.toInt| ≤ 2 ^ 62 ∧
    |colorOffset sat.toInt val.toInt| < 2 ^ 48 ∧
    ∀ ch ∈ [r, g, b], |ch| < 2 ^ 49 ∧ |ch * 255| < 2 ^ 57

/-! ## DEBOUNCE -/

/-- `enabled` is 1 exactly when the twelve bits of `HIST` are all 1 (R25). -/
def Obligations.EnabledIsAllOnes : Prop :=
  ∀ s : State, s.enabled = true ↔ ∀ k < 12, s.hist.getLsbD k = true

/-- DEBOUNCE: its code and operand port; it completes for either sample: the sample enters at bit 0, every stored one moves up,
the top one is lost, the flag returned is `enabled` of the new history, and nothing else changes (R150, R151, R152). -/
def Obligations.DebounceShiftsHistory : Prop :=
  (∀ c : Command, c.op = 5#3 → decode c = .ok (.debounce c.sw)) ∧
  (∀ (sw : Pin) (s : State), ∃ (h : Hist) (e : Bool),
    exec (.debounce sw) s = .next { s with hist := h, results := .enabled e :: s.results } ∧
    h.toNat = (s.hist.toNat * 2 + sw.toNat) % 2 ^ 12 ∧
    h.getLsbD 0 = (sw == 1#1) ∧ (∀ k < 11, h.getLsbD (k + 1) = s.hist.getLsbD k) ∧
    (e = true ↔ ∀ k < 12, h.getLsbD k = true) ∧ (e = true ↔ h.toNat = 0xFFF))

/-- One low sample makes DEBOUNCE return 0 at once, whatever `HIST` was, and so do the next eleven, whatever they sample; the
twelfth returns 1 only if all twelve are high (R154). -/
def Obligations.LowSampleClearsForTwelve : Prop :=
  ∀ (s : State) (samples : List Pin),
    (samples.length ≤ 11 → ∃ t, debounceAll (0#1 :: samples) s = .next t ∧
      t.results.head? = some (.enabled false) ∧ t.enabled = false) ∧
    (samples.length = 12 → ∃ t e, debounceAll (0#1 :: samples) s = .next t ∧
      t.results.head? = some (.enabled e) ∧ t.enabled = e ∧ (e = true ↔ ∀ x ∈ samples, x = 1#1))

/-- The source's test property, from every state: twelve high samples end with DEBOUNCE returning 1, and so does every high
sample after them; the next low one returns 0 at once (R155). -/
def Obligations.TwelveHighThenLow : Prop :=
  ∀ (s : State) (more : Nat), ∃ t u, debounceAll (List.replicate (12 + more) 1#1) s = .next t ∧
    t.results.head? = some (.enabled true) ∧ t.enabled = true ∧
    exec (.debounce 0) t = .next u ∧ u.enabled = false ∧ u.results = .enabled false :: t.results

/-- After at least twelve samples, from any state, `enabled` is high exactly when the last twelve were all high; from reset,
exactly when twelve have been taken and the last twelve were all high (R153, which the spec derives). -/
def Obligations.DebounceClosedForm : Prop :=
  (∀ (s : State) (samples : List Pin), 12 ≤ samples.length → ∃ t, debounceAll samples s = .next t ∧
    (t.enabled = true ↔ ∀ x ∈ samples.drop (samples.length - 12), x = 1#1)) ∧
  (∀ samples : List Pin, ∃ t, debounceAll samples State.reset = .next t ∧
    (t.enabled = true ↔ 12 ≤ samples.length ∧ ∀ x ∈ samples.drop (samples.length - 12), x = 1#1))

/-- Bit `k` of `HIST` is the sample taken `k` DEBOUNCE operations before the latest; before there were that many, it is the bit
`HIST` held `k - n` places lower at the start (R24, which the spec derives). -/
def Obligations.HistoryHoldsSamples : Prop :=
  ∀ (s : State) (samples : List Pin), ∃ t, debounceAll samples s = .next t ∧
    ∀ k < 12, t.hist.getLsbD k =
      if k < samples.length then samples.reverse[k]? == some 1#1 else s.hist.getLsbD (k - samples.length)

/-- With `k` high samples already at the bottom of the history and a low one above them, `n` further high samples set
`enabled` exactly when `12 - k ≤ n` (R161, which the spec derives). -/
def Obligations.EnabledRiseTime : Prop :=
  ∀ (s : State) (k n : Nat), k < 12 → (∀ j < k, s.hist.getLsbD j = true) → s.hist.getLsbD k = false →
    ∃ t, debounceAll (List.replicate n 1#1) s = .next t ∧ (t.enabled = true ↔ 12 - k ≤ n)

/-- The width of the history does not matter: every width of 12 or more, from the same low 12 bits, gives the same flags for
every sequence of samples (R27, which the spec derives). -/
def Obligations.HistoryWidthIndependence : Prop :=
  ∀ (w : Nat) (wide : BitVec w) (h : Hist) (samples : List Pin), 12 ≤ w → wide.setWidth 12 = h →
    enabledTrace wide samples = enabledTrace h samples

/-- The colour path and the enable path are apart: no operation but DEBOUNCE reads or writes `HIST`; and DEBOUNCE reads nothing of
theirs, since its flag and history follow from the history alone, and writes nothing of theirs, since every earlier result
and every line still to be issued stays as it was (R159). The two lists are the model's form of results and operands (log
entries 2 and 3). -/
def Obligations.ColourAndEnablePathsApart : Prop :=
  (∀ (i : Instr) (s : State) (h : Hist), (∀ sw, i ≠ .debounce sw) →
    (∀ t, exec i s = .next t → t.hist = s.hist ∧ exec i { s with hist := h } = .next { t with hist := h }) ∧
    (∀ r, exec i s = .refused r → exec i { s with hist := h } = .refused r)) ∧
  (∀ (sw : Pin) (s s' : State), s.hist = s'.hist → ∃ (t t' : State) (e : Bool), exec (.debounce sw) s = .next t ∧
    exec (.debounce sw) s' = .next t' ∧ t.hist = t'.hist ∧ t.enabled = t'.enabled ∧
    t.results = .enabled e :: s.results ∧ t.program = s.program ∧
    t'.results = .enabled e :: s'.results ∧ t'.program = s'.program)

/-- Every operation leaves the program alone and adds one result to the others; all but DEBOUNCE leave `HIST` and `enabled`
alone (R23). -/
def Obligations.OperationFrame : Prop :=
  ∀ (i : Instr) (s t : State), exec i s = .next t →
    t.program = s.program ∧ (∃ r, t.results = r :: s.results) ∧
    ((∀ sw, i ≠ .debounce sw) → t.hist = s.hist ∧ t.enabled = s.enabled)

/-- A pure operation that completes does so before a DEBOUNCE and after it, with the same result, the same history and the same
flag (R49). -/
def Obligations.PureOperationsCommute : Prop :=
  ∀ (i : Instr) (sw : Pin) (s t : State), (∀ p, i ≠ .debounce p) → exec i s = .next t →
    ∃ u v w r e, exec (.debounce sw) t = .next u ∧ exec (.debounce sw) s = .next v ∧ exec i v = .next w ∧
      u.hist = w.hist ∧ u.program = w.program ∧
      u.results = .enabled e :: r :: s.results ∧ w.results = r :: .enabled e :: s.results

/-! ## The machine -/

/-- Right after reset `HIST` is 0 (R29), so `enabled` is low. -/
def Obligations.ResetClearsHistory : Prop :=
  State.reset.hist = 0 ∧ State.reset.enabled = false

/-- The invariant holds right after reset. -/
def Obligations.ResetMeetsInvariant : Prop :=
  State.reset.Inv

/-- Every step keeps the invariant: alpha 255 in every colour returned, `enabled` as the latest DEBOUNCE returned it, and
`HIST` no larger than the samples taken allow. -/
def Obligations.StepKeepsInvariant : Prop :=
  ∀ s t : State, s.Inv → step s = .next t → t.Inv

/-- While a run that keeps the invariant has returned at most eleven flags, `enabled` is low; from reset, the twelfth sample
sets it exactly when all twelve are high (R207, which the spec derives from its choice of `HIST_RESET`). -/
def Obligations.EnabledLowForElevenSamples : Prop :=
  (∀ s : State, s.Inv → s.flags.length ≤ 11 → s.enabled = false) ∧
  (∀ samples : List Pin, samples.length = 12 → ∃ t, debounceAll samples State.reset = .next t ∧
    (t.enabled = true ↔ ∀ x ∈ samples, x = 1#1))

/-- The table of exception causes is empty: there is no cause with which a step could end in an exception (R185). -/
def Obligations.BlockRaisesNoException : Prop :=
  ∀ _f : Fault, False

/-- The closed list of refusals: at decode, a reserved code; SCALE with a span of 0; FXMUL, or SCALE with another span, whose
exact result does not fit `Y`. RAW2HUE, RAW2UNIT, CONVERT and DEBOUNCE have no place in it (R187). -/
def Obligations.RefusalsClosedList : Prop :=
  (∀ (c : Command) (r : Refusal), decodeAtIssue c = .error r ↔ (c.op = 6#3 ∨ c.op = 7#3) ∧ r = .reservedOp) ∧
  (∀ (i : Instr) (s : State) (r : Refusal), exec i s = .refused r ↔
    (∃ a b : PortWord, i = .fxmul a b ∧ r = .resultOverflow ∧
      ¬ (-2 ^ 31 ≤ (a.toInt * b.toInt).fdiv 32768 ∧ (a.toInt * b.toInt).fdiv 32768 < 2 ^ 31)) ∨
    (∃ x inMin inMax outMin outMax : PortWord, i = .scale x inMin inMax outMin outMax ∧ inMax = inMin ∧
      r = .zeroSpan) ∨
    (∃ x inMin inMax outMin outMax : PortWord, i = .scale x inMin inMax outMin outMax ∧ inMax ≠ inMin ∧
      r = .resultOverflow ∧
      ¬ (-2 ^ 31 ≤
          ((x.toInt - inMin.toInt) * (outMax.toInt - outMin.toInt)).tdiv (inMax.toInt - inMin.toInt) + outMin.toInt ∧
        ((x.toInt - inMin.toInt) * (outMax.toInt - outMin.toInt)).tdiv (inMax.toInt - inMin.toInt) + outMin.toInt <
          2 ^ 31)))

/-- TICK: its five lines, wherever they stand in a program and whatever lines their operands name, run in five steps with no
refusal; the colour is that of the three samples, the history and the flag are those of the pin, and of the state only
`HIST` is written (R170, R173). The lines and their running are said in the model's own terms: the list of results (log entry
2), the program list (log entry 3), names by distance in `tickLines` and `Operand.after` (log entry 4) and what a name is
worth (log entry 8). -/
def Obligations.TickRunsFiveOperations : Prop :=
  ∀ (s : State) (oH oS oV oP : Operand) (rawH rawS rawV : RawWord) (sw : Pin) (rest : List Line),
    s.program = tickLines oH oS oV oP ++ rest →
    operandValue s.results oH = .ok rawH.toInt → operandValue s.results oS = .ok rawS.toInt →
    operandValue s.results oV = .ok rawV.toInt → operandValue s.results oP = .ok (sw.toNat : Int) →
    ∃ h u v : PortWord, h.toInt = raw2hue rawH.toInt ∧ u.toInt = raw2unit rawS.toInt ∧ v.toInt = raw2unit rawV.toInt ∧
      Sys2Proof.core.run 5 s = .next
        { hist := (tick s.hist rawH rawS rawV sw).1
          results := .enabled (tick s.hist rawH rawS rawV sw).2.2 :: .q (tick s.hist rawH rawS rawV sw).2.1 ::
            .y v :: .y u :: .y h :: s.results
          program := rest }

/-- A textual line is refused at issue exactly for its first bad operand, and the reason is that operand's: `unboundName` for a
name that reaches above the first result, `operandRange` for a value outside its port's range. The spec calls such a line
ill-formed and not executed (R65, R71); the two reasons, and which of two bad operands is reported, are the model's choice
(log entry 8), and so are names by distance (log entry 4). -/
def Obligations.BadLineRefusedForItsFirstBadOperand : Prop :=
  ∀ (rs : List Result) (l : Line) (why : Refusal), (∀ c, l ≠ .command c) →
    (issue rs l = .error why ↔
      ∃ (before after : List PortOperand) (bad : PortOperand), l.operands = before ++ bad :: after ∧
        (∀ p ∈ before, ∃ v : Int, operandValue rs p.operand = .ok v ∧ p.least ≤ v ∧ v ≤ p.greatest) ∧
        ((why = .unboundName ∧ ∃ back : Nat, bad.operand = .name back ∧ rs.length ≤ back) ∨
          (why = .operandRange ∧ ∃ v : Int, operandValue rs bad.operand = .ok v ∧
            (v < bad.least ∨ bad.greatest < v))))
end

