-- ==== Sys2Proof/Laws/Arith.lean ====
section
/-! SUPPORT. The exact arithmetic in the library's terms, and the bounds that decide whether a result fits its port. -/

namespace Sys2Proof.Machine

/-- The floor shift is Euclidean division by 32768. -/
theorem asr15_eq_ediv (v : Int) : asr15 v = v / 32768 := by
  simp [asr15, Config.frac, Int.shiftRight_eq_div_pow]

/-- The floor shift is floor division by 32768 (R10). -/
theorem asr15_eq_fdiv (v : Int) : asr15 v = v.fdiv 32768 := by
  rw [asr15_eq_ediv, Int.fdiv_eq_ediv_of_nonneg _ (by decide)]

theorem fxmul_eq_ediv (a b : Int) : fxmul a b = a * b / 32768 :=
  asr15_eq_ediv _

/-- The multiply fits `Y` exactly for the products of R88. -/
theorem fitsY_fxmul_iff (a b : Int) : fitsY (fxmul a b) = true ↔ -2 ^ 46 ≤ a * b ∧ a * b < 2 ^ 46 := by
  simp only [fitsY, fxmul_eq_ediv, Bool.and_eq_true, decide_eq_true_eq]
  omega

/-- A truncating quotient is bracketed by its numerator, for a divisor above 0. -/
theorem tdiv_bounds {n d : Int} (hd : 0 < d) :
    (0 ≤ n → 0 ≤ tdiv n d ∧ tdiv n d * d ≤ n ∧ n < tdiv n d * d + d) ∧
    (n ≤ 0 → tdiv n d ≤ 0 ∧ n ≤ tdiv n d * d ∧ tdiv n d * d - d < n) := by
  have key : ∀ m : Int, 0 ≤ m → 0 ≤ m.tdiv d ∧ m.tdiv d * d ≤ m ∧ m < m.tdiv d * d + d := by
    intro m hm
    rw [Int.tdiv_eq_ediv_of_nonneg hm]
    have h1 := Int.mul_ediv_add_emod m d
    have h2 := Int.emod_nonneg m hd.ne'
    have h3 := Int.emod_lt_of_pos m hd
    have h4 : d * (m / d) = m / d * d := Int.mul_comm _ _
    exact ⟨Int.ediv_nonneg hm hd.le, by omega, by omega⟩
  refine ⟨key n, fun hn => ?_⟩
  have h := key (-n) (by omega)
  rw [Int.neg_tdiv, Int.neg_mul] at h
  simp only [tdiv]
  omega

/-- The exact value of `raw2hue` in the library's terms (R106). -/
theorem raw2hue_eq (raw : Int) : raw2hue raw = ((((raw - 120) * 360).tdiv 3975) * 32768).tdiv 60 := by
  simp [raw2hue, rawDegrees, scaleLinear, tdiv, Config.rawLo, Config.rawHi, Config.degMax, Config.one,
    Config.degPerSector]

/-- The exact value of `raw2unit` in the library's terms (R112). -/
theorem raw2unit_eq (raw : Int) : raw2unit raw = ((raw - 120) * 32768).tdiv 3975 := by
  simp [raw2unit, scaleLinear, tdiv, Config.rawLo, Config.rawHi, Config.one]

/-- The channel scaling in the library's terms (R129, R130). -/
theorem channelByte_eq (v : Int) : channelByte v = BitVec.ofInt 8 ((v * 255).tdiv 32768) := by
  simp [channelByte, scaleLinear, tdiv, trunc8, Config.one, Config.byteMax]

/-- A number within the range of a signed port is the value of its own pattern. -/
theorem toInt_ofInt_32 {v : Int} (lo : -2 ^ 31 ≤ v) (hi : v < 2 ^ 31) : (BitVec.ofInt 32 v).toInt = v := by
  rw [BitVec.toInt_ofInt, Int.bmod_def]
  split <;> omega

/-- A value that fits `Y` is the value of its own pattern. -/
theorem toInt_ofInt_of_fitsY {v : Int} (h : fitsY v = true) : (BitVec.ofInt 32 v).toInt = v := by
  simp only [fitsY, Bool.and_eq_true, decide_eq_true_eq] at h
  exact toInt_ofInt_32 h.1 h.2

end Sys2Proof.Machine
end

