-- ==== Sys2Proof/Laws/Convert.lean ====
section
/-! SUPPORT. The steps of CONVERT in the library's terms (42_hsv_to_rgba.md R121 to R125, R132). -/

namespace Sys2Proof.Machine

theorem chroma_eq_fdiv (sat val : Int) : chroma sat val = (val * sat).fdiv 32768 :=
  asr15_eq_fdiv _

theorem hueMod_eq (hp : Int) : hueMod hp = hp % 65536 := rfl

theorem hueDist_eq (hp : Int) : hueDist hp = 32768 - |hp % 65536 - 32768| := by
  rw [Int.abs_eq_natAbs]
  rfl

theorem secondComponent_eq_fdiv (hp sat val : Int) :
    secondComponent hp sat val = (chroma sat val * hueDist hp).fdiv 32768 :=
  asr15_eq_fdiv _

/-- The triangular distance is never negative and never above 1.0. -/
theorem hueDist_mem (hp : Int) : 0 ≤ hueDist hp ∧ hueDist hp ≤ 32768 := by
  rw [hueDist_eq, abs_eq_max_neg]
  omega

/-- Whatever is made of the sector, the tests on hue-prime are those of R125 in their order. -/
theorem apply_sectorOf {α : Type} (f : Sector → α) (hp : Int) : f (sectorOf hp) =
    if 0 ≤ hp ∧ hp ≤ 32768 then f .one
    else if 32768 ≤ hp ∧ hp ≤ 65536 then f .two
    else if 65536 ≤ hp ∧ hp ≤ 98304 then f .three
    else if 98304 ≤ hp ∧ hp ≤ 131072 then f .four
    else if 131072 ≤ hp ∧ hp ≤ 163840 then f .five
    else if 163840 ≤ hp ∧ hp ≤ 196608 then f .six
    else f .outOfRange := by
  have h : sectorOf hp =
      if 0 ≤ hp ∧ hp ≤ 32768 then .one
      else if 32768 ≤ hp ∧ hp ≤ 65536 then .two
      else if 65536 ≤ hp ∧ hp ≤ 98304 then .three
      else if 98304 ≤ hp ∧ hp ≤ 131072 then .four
      else if 131072 ≤ hp ∧ hp ≤ 163840 then .five
      else if 163840 ≤ hp ∧ hp ≤ 196608 then .six
      else .outOfRange := rfl
  rw [h]
  repeat' split
  all_goals rfl

/-- The packed colour is its four bytes side by side, red on top. -/
theorem packRgba_eq_append (r g b a : Byte) : packRgba r g b a = r ++ g ++ b ++ a := by
  apply BitVec.eq_of_getLsbD_eq
  intro i hi
  have top : ∀ (x : Byte) (j : Nat), 8 ≤ j → x.getLsbD j = false := fun x j h => BitVec.getLsbD_of_ge x j h
  simp only [packRgba, BitVec.getLsbD_or, BitVec.getLsbD_shiftLeft, BitVec.getLsbD_setWidth, BitVec.getLsbD_append,
    hi, decide_true, Bool.true_and]
  by_cases h1 : i < 8
  · simp [h1, show i < 16 by omega, show i < 24 by omega]
  by_cases h2 : i < 16
  · simp [h1, h2, show i < 24 by omega, top _ i (by omega), show i - 8 < 8 by omega, show i - 8 < 32 by omega]
  by_cases h3 : i < 24
  · simp [h1, h2, h3, top _ i (by omega), top _ (i - 8) (by omega), Nat.sub_sub, show ¬ i - 8 < 8 by omega,
      show i - 16 < 8 by omega, show i - 16 < 32 by omega]
  · simp [h1, h2, h3, top _ i (by omega), top _ (i - 8) (by omega), top _ (i - 16) (by omega), Nat.sub_sub,
      show ¬ i - 8 < 8 by omega, show ¬ i - 16 < 8 by omega, show i - 24 < 32 by omega]

/-- What CONVERT answers. -/
theorem execConvert_eq (huePrime sat val : PortWord) (s : State) : execConvert huePrime sat val s =
    .next { s with results := .q (convert huePrime.toInt sat.toInt val.toInt) :: s.results } := rfl

end Sys2Proof.Machine
end

