-- ==== Sys2Proof/Laws/Debounce.lean ====
section
/-! SUPPORT. The history register bit by bit, at any width. -/

namespace Sys2Proof.Machine

/-- The new sample stands at bit 0. -/
theorem histShift_zero {w : Nat} (hw : 0 < w) (h : BitVec w) (sw : Pin) :
    (histShift h sw).getLsbD 0 = sw.getLsbD 0 := by
  simp [histShift, hw]

/-- Every stored sample moves one position up. -/
theorem histShift_succ {w : Nat} (h : BitVec w) (sw : Pin) {k : Nat} (hk : k + 1 < w) :
    (histShift h sw).getLsbD (k + 1) = h.getLsbD k := by
  have hs : sw.getLsbD (k + 1) = false := BitVec.getLsbD_of_ge sw (k + 1) (by omega)
  rw [histShift, BitVec.getLsbD_or, BitVec.getLsbD_shiftLeft, BitVec.getLsbD_setWidth, hs]
  simp [hk]

/-- The mask has its lowest twelve bits set. -/
theorem getLsbD_mask (w k : Nat) :
    (BitVec.ofNat w Config.debMask).getLsbD k = (decide (k < w) && decide (k < 12)) := by
  rw [BitVec.getLsbD_ofNat]
  exact congrArg _ (Nat.testBit_two_pow_sub_one 12 k)

/-- `enabled` looks at the lowest twelve bits and nothing else. -/
theorem histEnabled_iff {w : Nat} (hw : 12 ≤ w) (h : BitVec w) :
    histEnabled h = true ↔ ∀ k < 12, h.getLsbD k = true := by
  rw [histEnabled, beq_iff_eq]
  constructor
  · intro e k hk
    have hb := congrArg (fun v => BitVec.getLsbD v k) e
    rw [BitVec.getLsbD_and, getLsbD_mask] at hb
    have hkw : k < w := by omega
    simpa only [hk, hkw, decide_true, Bool.and_true] using hb
  · intro e
    apply BitVec.eq_of_getLsbD_eq
    intro k _
    rw [BitVec.getLsbD_and, getLsbD_mask]
    by_cases h12 : k < 12
    · rw [e k h12, Bool.true_and]
    · simp only [h12, decide_false, Bool.and_false]

/-- What DEBOUNCE answers. -/
theorem exec_debounce (sw : Pin) (s : State) :
    exec (.debounce sw) s = .next { s with
      hist := histShift s.hist sw
      results := .enabled (histEnabled (histShift s.hist sw)) :: s.results } := rfl

/-- A run of DEBOUNCE operations always completes, and takes its first sample first. -/
theorem debounceAll_cons (sw : Pin) (rest : List Pin) (s : State) :
    debounceAll (sw :: rest) s = debounceAll rest { s with
      hist := histShift s.hist sw
      results := .enabled (histEnabled (histShift s.hist sw)) :: s.results } := rfl

end Sys2Proof.Machine
end

