-- ==== Sys2Proof/Laws/Operands.lean ====
section
/-! SUPPORT. When an operand reaches its port, and what a line issues. -/

namespace Sys2Proof.Machine

/-- A number reaches a 32-bit port exactly if it is the value of some pattern there. -/
theorem driveSigned_32_ok_iff (v : Int) (p : PortWord) : driveSigned 32 v = .ok p ↔ v = p.toInt := by
  have hp := p.isLt
  rw [driveSigned]
  split
  · rename_i h
    constructor
    · intro e
      cases e
      exact (toInt_ofInt_32 (by simpa using h.1) (by simpa using h.2)).symm
    · rintro rfl
      simp
  · rename_i h
    constructor
    · intro e
      cases e
    · rintro rfl
      exact absurd ⟨BitVec.le_toInt p, BitVec.toInt_lt⟩ h

/-- A number reaches the port `RAW` exactly if it is the value of some pattern there. -/
theorem driveSigned_16_ok_iff (v : Int) (p : RawWord) : driveSigned 16 v = .ok p ↔ v = p.toInt := by
  rw [driveSigned]
  split
  · rename_i h
    constructor
    · intro e
      cases e
      rw [BitVec.toInt_ofInt, Int.bmod_def]
      norm_num at h ⊢
      split <;> omega
    · rintro rfl
      simp
  · rename_i h
    constructor
    · intro e
      cases e
    · rintro rfl
      exact absurd ⟨BitVec.le_toInt p, BitVec.toInt_lt⟩ h

/-- A number reaches the port `sw` exactly if it is 0 or 1. -/
theorem driveBit_ok_iff (v : Int) (p : Pin) : driveBit v = .ok p ↔ v = p.toNat := by
  rw [driveBit]
  split
  · rename_i h
    obtain rfl | rfl : v = 0 ∨ v = 1 := by omega
    · revert p; decide
    · revert p; decide
  · rename_i h
    have := p.isLt
    constructor
    · intro e
      cases e
    · intro e
      exact absurd ⟨by omega, by omega⟩ h

theorem signedOperand_32_ok_iff (rs : List Result) (o : Operand) (p : PortWord) :
    signedOperand 32 rs o = .ok p ↔ operandValue rs o = .ok p.toInt := by
  rw [signedOperand]
  cases h : operandValue rs o with
  | error r => simp [Except.bind]
  | ok v => simp [Except.bind, driveSigned_32_ok_iff]

theorem signedOperand_16_ok_iff (rs : List Result) (o : Operand) (p : RawWord) :
    signedOperand 16 rs o = .ok p ↔ operandValue rs o = .ok p.toInt := by
  rw [signedOperand]
  cases h : operandValue rs o with
  | error r => simp [Except.bind]
  | ok v => simp [Except.bind, driveSigned_16_ok_iff]

theorem bitOperand_ok_iff (rs : List Result) (o : Operand) (p : Pin) :
    bitOperand rs o = .ok p ↔ operandValue rs o = .ok (p.toNat : Int) := by
  rw [bitOperand]
  cases h : operandValue rs o with
  | error r => simp [Except.bind]
  | ok v => simp [Except.bind, driveBit_ok_iff]

/-- An operand has no value exactly if it is a name that reaches above the first result. -/
theorem operandValue_error_iff (rs : List Result) (o : Operand) (why : Refusal) :
    operandValue rs o = .error why ↔ why = .unboundName ∧ ∃ back, o = .name back ∧ rs.length ≤ back := by
  cases o with
  | num v => simp [operandValue]
  | name back =>
    rw [operandValue]
    split
    · rename_i h
      simpa using fun _ => (List.getElem?_eq_some_iff.1 h).1
    · rename_i h
      simp [List.getElem?_eq_none_iff.1 h, eq_comm]

/-- Why an operand does not reach a signed port. -/
theorem signedOperand_error_iff (w : Nat) (rs : List Result) (o : Operand) (why : Refusal) :
    signedOperand w rs o = .error why ↔ operandValue rs o = .error why ∨
      (why = .operandRange ∧ ∃ v, operandValue rs o = .ok v ∧ (v < -2 ^ (w - 1) ∨ 2 ^ (w - 1) ≤ v)) := by
  rw [signedOperand]
  cases operandValue rs o with
  | error r => simp [Except.bind]
  | ok v =>
    by_cases h : -2 ^ (w - 1) ≤ v ∧ v < 2 ^ (w - 1)
    · simp [Except.bind, driveSigned, h]
    · simp only [Except.bind, driveSigned, if_neg h]
      simp only [not_and_or, not_le, not_lt] at h
      simp [h, eq_comm]

/-- Why an operand does not reach the port `sw`. -/
theorem bitOperand_error_iff (rs : List Result) (o : Operand) (why : Refusal) :
    bitOperand rs o = .error why ↔ operandValue rs o = .error why ∨
      (why = .operandRange ∧ ∃ v, operandValue rs o = .ok v ∧ (v < 0 ∨ 1 < v)) := by
  rw [bitOperand]
  cases operandValue rs o with
  | error r => simp [Except.bind]
  | ok v =>
    by_cases h : 0 ≤ v ∧ v ≤ 1
    · simp [Except.bind, driveBit, h]
    · simp only [Except.bind, driveBit, if_neg h]
      simp only [not_and_or, not_le] at h
      simp [h, eq_comm]

/-- The block reads back from its ports the operation the host put there. -/
theorem decodeAtIssue_encode (i : Instr) : decodeAtIssue (encode i) = .ok i := by
  cases i <;> rfl

/-- A command given by its port patterns is issued as it is decoded. -/
theorem issue_command (rs : List Result) (c : Command) : issue rs (.command c) = decodeAtIssue c := rfl

end Sys2Proof.Machine
end

