-- ==== Sys2Proof/Laws/PerInstr.lean ====
section
/-! SUPPORT. One fact per operation, about its syntax: its command carries its own code and zero on every port it does not
use (30_encoding.md R63, R67). -/

namespace Sys2Proof.Laws.Encoding

/-- The encoding of an operation. -/
def Statement (i : Instr) : Prop :=
  (encode i).op = (opCodeOf i).bits ∧ OpCode.ofBits (encode i).op = .ok (opCodeOf i) ∧
  ∀ p, p ∉ (opCodeOf i).ports → (encode i).pattern p = 0

theorem fxmul (a b : PortWord) : Statement (.fxmul a b) :=
  ⟨rfl, rfl, fun p hp => by cases p <;> simp_all [opCodeOf, OpCode.ports] <;> rfl⟩

theorem scale (x inMin inMax outMin outMax : PortWord) : Statement (.scale x inMin inMax outMin outMax) :=
  ⟨rfl, rfl, fun p hp => by cases p <;> simp_all [opCodeOf, OpCode.ports] <;> rfl⟩

theorem raw2hue (raw : RawWord) : Statement (.raw2hue raw) :=
  ⟨rfl, rfl, fun p hp => by cases p <;> simp_all [opCodeOf, OpCode.ports] <;> rfl⟩

theorem raw2unit (raw : RawWord) : Statement (.raw2unit raw) :=
  ⟨rfl, rfl, fun p hp => by cases p <;> simp_all [opCodeOf, OpCode.ports] <;> rfl⟩

theorem convert (huePrime sat val : PortWord) : Statement (.convert huePrime sat val) :=
  ⟨rfl, rfl, fun p hp => by cases p <;> simp_all [opCodeOf, OpCode.ports] <;> rfl⟩

theorem debounce (sw : Pin) : Statement (.debounce sw) :=
  ⟨rfl, rfl, fun p hp => by cases p <;> simp_all [opCodeOf, OpCode.ports] <;> rfl⟩

end Sys2Proof.Laws.Encoding
end

