-- ==== Sys2Proof/Laws/State.lean ====
section
/-! SUPPORT. What each update does to each field of the state. -/

namespace Sys2Proof.Machine

variable (s : State) (r : Result) (h : Hist) (p : List Line)

@[simp] theorem State.withResult_hist : (s.withResult r).hist = s.hist := rfl
@[simp] theorem State.withResult_results : (s.withResult r).results = r :: s.results := rfl
@[simp] theorem State.withResult_program : (s.withResult r).program = s.program := rfl
@[simp] theorem State.withHist_hist : (s.withHist h).hist = h := rfl
@[simp] theorem State.withHist_results : (s.withHist h).results = s.results := rfl
@[simp] theorem State.withHist_program : (s.withHist h).program = s.program := rfl
@[simp] theorem State.withProgram_hist : (s.withProgram p).hist = s.hist := rfl
@[simp] theorem State.withProgram_results : (s.withProgram p).results = s.results := rfl
@[simp] theorem State.withProgram_program : (s.withProgram p).program = p := rfl

end Sys2Proof.Machine
end

