-- ==== Sys2Proof/Laws/Step.lean ====
section
/-! SUPPORT. Everything an operation and a step can do. -/

namespace Sys2Proof.Machine

/-- What a checked return answers. -/
theorem returnYChecked_eq (v : Int) (s : State) :
    returnYChecked v s =
      if fitsY v = true then .next (s.withResult (.y (BitVec.ofInt 32 v))) else .refused .resultOverflow := rfl

/-- If an operation answers a next state, it returned one result, and only DEBOUNCE wrote `HIST` as well. -/
theorem exec_next_cases {i : Instr} {s t : State} (h : exec i s = .next t) :
    (∃ v, t = s.withResult (.y v)) ∨
    (∃ hp sat val : PortWord, t = s.withResult (.q (convert hp.toInt sat.toInt val.toInt))) ∨
    (∃ sw, i = .debounce sw ∧
      t = (s.withHist (histShift s.hist sw)).withResult (.enabled (histEnabled (histShift s.hist sw)))) := by
  have checked : ∀ v, returnYChecked v s = .next t → ∃ v, t = s.withResult (.y v) := by
    intro v hv
    rw [returnYChecked_eq] at hv
    split at hv
    · cases hv; exact ⟨_, rfl⟩
    · cases hv
  cases i with
  | fxmul a b => exact .inl (checked _ h)
  | scale x inMin inMax outMin outMax =>
    simp only [exec, execScale] at h
    split at h
    · cases h
    · exact .inl (checked _ h)
  | raw2hue raw => cases h; exact .inl ⟨_, rfl⟩
  | raw2unit raw => cases h; exact .inl ⟨_, rfl⟩
  | convert hp sat val => cases h; exact .inr (.inl ⟨hp, sat, val, rfl⟩)
  | debounce sw => cases h; exact .inr (.inr ⟨sw, rfl, rfl⟩)

/-- If a step answers a next state, the block was idle or it executed the operation its first line issued. -/
theorem step_next_cases {s t : State} (h : step s = .next t) :
    (s.program = [] ∧ t = s) ∨
    (∃ l rest i, s.program = l :: rest ∧ issue s.results l = .ok i ∧ exec i (s.withProgram rest) = .next t) := by
  simp only [step] at h
  split at h
  · rename_i hp; cases h; exact .inl ⟨hp, rfl⟩
  · rename_i l rest hp
    split at h
    · rename_i i hi; exact .inr ⟨l, rest, i, hp, hi, h⟩
    · cases h

end Sys2Proof.Machine
end

