-- ==== Sys2Proof/Tests/Slice0.lean ====
section
/-! SUPPORT. Tests of the model. Every expected value is one of the spec's own (95_test_vectors.md, or the rule named). Beside
them one witness for each statement that has hypotheses. -/

namespace Sys2Proof.Machine.Tests

/-- A block with the given history, nothing returned and the given program. -/
def block (h : Hist) (p : List Line) : State :=
  { hist := h, results := [], program := p }

/-- Whether an answer is a next state with this history and this latest result. -/
def gives (o : Answer) (h : Hist) (r : Result) : Bool :=
  match o with
  | .next s => s.hist == h && s.results.head? == some r
  | .fault _ => false
  | .refused _ => false

/-- Whether an answer is this refusal. -/
def refuses (o : Answer) (why : Refusal) : Bool :=
  match o with
  | .next _ => false
  | .fault _ => false
  | .refused r => r == why

/-- Whether a line is refused at issue for this reason, with nothing returned so far. -/
def notIssued (l : Line) (why : Refusal) : Bool :=
  match issue [] l with
  | .ok _ => false
  | .error r => r == why

/-- A bare command, for the decoding tests. -/
def cmd (op : BitVec 3) : Command :=
  { op := op, a := 1, b := 2, c := 3, d := 4, e := 5, raw := 6, sw := 1 }

/-! ## Decoding, from the codes of R67 and the ports of R63 -/

theorem test_decode_fxmul : (decode (cmd 0b000)).toOption = some (.fxmul 1 2) := by decide
theorem test_decode_scale : (decode (cmd 0b001)).toOption = some (.scale 1 2 3 4 5) := by decide
theorem test_decode_raw2hue : (decode (cmd 0b010)).toOption = some (.raw2hue 6) := by decide
theorem test_decode_raw2unit : (decode (cmd 0b011)).toOption = some (.raw2unit 6) := by decide
theorem test_decode_convert : (decode (cmd 0b100)).toOption = some (.convert 1 2 3) := by decide
theorem test_decode_debounce : (decode (cmd 0b101)).toOption = some (.debounce 1) := by decide
theorem test_decode_reserved_6 : (decode (cmd 0b110)).toOption = none := by decide
theorem test_decode_reserved_7 : (decode (cmd 0b111)).toOption = none := by decide

/-- The six rows of the opcode table, in order, by their own bits. -/
theorem test_table_words : (List.range 8).map (decodeTableWord 8) =
    [some (.fxmul 0 0), some (.scale 0 0 0 0 0), some (.raw2hue 0), some (.raw2unit 0), some (.convert 0 0 0),
     some (.debounce 0), none, none] := by decide

/-- The encoder, on a command of program P5. -/
theorem test_encode_convert : encode (.convert 0x00009C40 0x00004E20 0x00007530) =
    { op := 4, a := 0x00009C40, b := 0x00004E20, c := 0x00007530, d := 0, e := 0, raw := 0, sw := 0 } := by decide

/-! ## Well-formed lines: each check refuses the first value outside its range (R65) and an unbound name (R71) -/

theorem test_wf_port_top : Line.wellFormed 0 (.fxmul (.num 2147483647) (.num (-2147483648))) = true := by decide
theorem test_wf_fxmul_a : Line.wellFormed 0 (.fxmul (.num 2147483648) (.num 0)) = false := by decide
theorem test_wf_fxmul_b : Line.wellFormed 0 (.fxmul (.num 0) (.num (-2147483649))) = false := by decide
theorem test_wf_scale :
    Line.wellFormed 0 (.scale (.num 2147483648) (.num 0) (.num 0) (.num 0) (.num 0)) = false ∧
    Line.wellFormed 0 (.scale (.num 0) (.num 2147483648) (.num 0) (.num 0) (.num 0)) = false ∧
    Line.wellFormed 0 (.scale (.num 0) (.num 0) (.num 2147483648) (.num 0) (.num 0)) = false ∧
    Line.wellFormed 0 (.scale (.num 0) (.num 0) (.num 0) (.num 2147483648) (.num 0)) = false ∧
    Line.wellFormed 0 (.scale (.num 0) (.num 0) (.num 0) (.num 0) (.num 2147483648)) = false := by decide
theorem test_wf_raw2hue : Line.wellFormed 0 (.raw2hue (.num 32768)) = false := by decide
theorem test_wf_raw2unit : Line.wellFormed 0 (.raw2unit (.num (-32769))) = false := by decide
theorem test_wf_convert :
    Line.wellFormed 0 (.convert (.num 2147483648) (.num 0) (.num 0)) = false ∧
    Line.wellFormed 0 (.convert (.num 0) (.num 2147483648) (.num 0)) = false ∧
    Line.wellFormed 0 (.convert (.num 0) (.num 0) (.num 2147483648)) = false := by decide
theorem test_wf_debounce : Line.wellFormed 0 (.debounce (.num 2)) = false ∧
    Line.wellFormed 0 (.debounce (.num (-1))) = false := by decide
theorem test_wf_name : Line.wellFormed 1 (.raw2hue (.name 0)) = true ∧
    Line.wellFormed 1 (.raw2hue (.name 1)) = false := by decide
theorem test_wf_program : programWellFormed 0 (tickLines (.num 120) (.num 4095) (.num 4095) (.num 1)) = true ∧
    programWellFormed 0 [.debounce (.num 1), .raw2hue (.name 1)] = false := by decide
theorem test_out_of_range_not_issued : notIssued (.raw2hue (.num 32768)) .operandRange = true := by decide
theorem test_unbound_not_issued : notIssued (.raw2hue (.name 0)) .unboundName = true := by decide

/-! ## The operations, on the vectors of 95_test_vectors.md -/

/-- 2.1: -1.5 floors to -2. -/
theorem test_fxmul_floors : gives (exec (.fxmul (-3) 16384) (block 0 [])) 0 (.y (-2)) = true := by decide
/-- 2.1: the first product that does not fit. -/
theorem test_fxmul_overflow :
    refuses (exec (.fxmul 0x80000000 32769) (block 0 [])) .resultOverflow = true := by decide
/-- 2.2: the product 2^64 - 2^33 + 1 is formed exactly. -/
theorem test_scale_wide :
    gives (exec (.scale 0x7FFFFFFF 0x80000000 0x7FFFFFFF 0x80000000 0x7FFFFFFF) (block 0 [])) 0
      (.y 0x7FFFFFFF) = true := by decide
/-- 2.2: `ZeroSpan` even when the numerator is 0; a quotient rounded toward zero; a result one too large. -/
theorem test_scale_corners : refuses (exec (.scale 0 0 0 0 0) (block 0 [])) .zeroSpan = true ∧
    gives (exec (.scale (-3) 0 4 10 13) (block 0 [])) 0 (.y 8) = true ∧
    refuses (exec (.scale 0x7FFFFFFF 0 1 1 2) (block 0 [])) .resultOverflow = true := by decide
/-- 2.3: the least port value. -/
theorem test_raw2hue_least : gives (exec (.raw2hue 0x8000) (block 0 [])) 0 (.y (-1626385)) = true := by decide
/-- 2.3: one degree below a boundary. -/
theorem test_raw2hue_782 : gives (exec (.raw2hue 782) (block 0 [])) 0 (.y 32221) = true := by decide
/-- 2.3: the low stop, below the calibration point. -/
theorem test_raw2unit_0 : gives (exec (.raw2unit 0) (block 0 [])) 0 (.y (-989)) = true := by decide
/-- 2.3: the greatest port value. -/
theorem test_raw2unit_greatest : gives (exec (.raw2unit 0x7FFF) (block 0 [])) 0 (.y 269126) = true := by decide
/-- 2.4, V-MID: one point inside each sector. -/
theorem test_convert_sectors : [10000, 40000, 70000, 100000, 140000, 170000].map (fun hp => convert hp 20000 30000) =
    [0xE9865AFF, 0xCAE95AFF, 0x5AE96EFF, 0x5AE2E9FF, 0x815AE9FF, 0xE95ACEFF] := by decide
/-- 2.4, V-OUT: bytes that wrap, on both sides and at the ends of the ports. -/
theorem test_convert_artefacts :
    [convert 0 32768 40000, convert 0 40000 32768, convert 65536 40000 40000, convert 0 (-989) 32768,
     convert (-5461) (-989) (-989), convert 0 2147483647 2147483647, convert 0 (-2147483648) 2147483647] =
    [0x370000FF, 0xFFC8C8FF, 0xBC37BCFF, 0xFF0606FF, 0xF9F9F9FF, 0xFFFCFCFF, 0xFF0101FF] := by decide
/-- 2.5: the twelfth one sets the flag. -/
theorem test_debounce_sets : gives (exec (.debounce 1) (block 0x7FF [])) 0xFFF (.enabled true) = true := by decide
/-- 2.5: the zero travels left; bit 11 is dropped. -/
theorem test_debounce_shifts : gives (exec (.debounce 1) (block 0xFFE [])) 0xFFD (.enabled false) = true ∧
    gives (exec (.debounce 1) (block 0x800 [])) 0x001 (.enabled false) = true := by decide

/-! ## The step -/

/-- P6, with its last command a reserved code: the run ends with the refusal. -/
theorem test_step_reserved : refuses (step (block 0xFFE [.command (cmd 6)])) .reservedOp = true := by decide
/-- A name is worth what the line it names returned: P1, line 4. -/
theorem test_step_names : gives
    (step { hist := 0, results := [.y 32768, .y 32768, .y 0], program := [.convert (.name 2) (.name 1) (.name 0)] })
    0 (.q 0xFF0000FF) = true := by decide
/-- 2.7: a TICK's colour and flag. -/
theorem test_tick : tick 0 500 2000 3500 1 = (0x001, 0xD8AC72FF, false) := by decide
/-- With 16 bits of history the same flags (2.5). -/
theorem test_wide_history : histShift (0xF7FF#16) 1 = 0xEFFF#16 ∧ histEnabled (0xEFFF#16) = true := by decide
/-- The placed table word is the first operation after reset. -/
theorem test_fetch_word : gives (step (State.reset.withFetchWord 8 0b011)) 0 (.y (-989)) = true := by decide

/-! ## Witnesses: what each statement's hypotheses ask for exists -/

/-- StepRunsDecodedInstruction: a decoded command, an issued line and a refused line. -/
theorem witness_step_runs :
    (∃ (s : State) (c : Command) (rest : List Line) (i : Instr), s.program = .command c :: rest ∧ decode c = .ok i) ∧
    (∃ (s : State) (l : Line) (rest : List Line) (i : Instr), s.program = l :: rest ∧ issue s.results l = .ok i) ∧
    (∃ (s : State) (l : Line) (rest : List Line) (r : Refusal), s.program = l :: rest ∧ issue s.results l = .error r) :=
  ⟨⟨block 0 [.command (cmd 5)], cmd 5, [], .debounce 1, rfl, rfl⟩,
   ⟨block 0 [.raw2hue (.num 120)], .raw2hue (.num 120), [], .raw2hue 120, rfl, rfl⟩,
   ⟨block 0 [.raw2hue (.name 0)], .raw2hue (.name 0), [], .unboundName, rfl, rfl⟩⟩

/-- IdleBlockHoldsState: a block with nothing to do. -/
theorem witness_idle : ∃ s : State, s.program = [] := ⟨State.reset, rfl⟩

/-- FetchWordRunsTableInstruction: a table word that decodes. -/
theorem witness_fetch : decodeTableWord 8 4 = some (.convert 0 0 0) := by decide

/-- TextualLineDrivesItsPorts: both sides hold at the ends of the ports' ranges. -/
theorem witness_textual :
    issue [] (.fxmul (.num 2147483647) (.num (-2147483648))) = .ok (.fxmul 0x7FFFFFFF 0x80000000) ∧
    issue [] (.raw2hue (.num (-32768))) = .ok (.raw2hue 0x8000) ∧ issue [] (.debounce (.num 1)) = .ok (.debounce 1) :=
  ⟨rfl, rfl, rfl⟩

/-- TextualLineDrivesItsPorts: a name of the oldest result and one too far up, on a list of one result of each port. -/
theorem witness_names :
    (operandValue [.enabled true, .q 0xFFFFFFFF] (.name 0)).toOption = some 1 ∧
    (operandValue [.enabled true, .q 0xFFFFFFFF] (.name 1)).toOption = some 4294967295 ∧
    (operandValue [.y 0xFFFFFFFF] (.name 0)).toOption = some (-1) ∧
    [Result.enabled true, .q 0xFFFFFFFF].length ≤ 2 := by decide

/-- BadLineRefusedForItsFirstBadOperand: on each port the two values next to its range, and two bad operands in either order. -/
theorem witness_bad_lines :
    ([-2147483649, 2147483648].all fun v => notIssued (.fxmul (.num 0) (.num v)) .operandRange) = true ∧
    ([-32769, 32768].all fun v => notIssued (.raw2unit (.num v)) .operandRange) = true ∧
    ([-1, 2].all fun v => notIssued (.debounce (.num v)) .operandRange) = true ∧
    notIssued (.convert (.num 0) (.name 0) (.num 2147483648)) .unboundName = true ∧
    notIssued (.convert (.num 0) (.num 2147483648) (.name 0)) .operandRange = true ∧
    (∀ c, Line.debounce (.num 2) ≠ .command c) :=
  ⟨by decide, by decide, by decide, by decide, by decide, fun _ h => nomatch h⟩

/-- WellFormedLineNotRefusedForNameOrNumeral: a line with a bound name, and one of numerals only. -/
theorem witness_wellFormed :
    Line.wellFormed [Result.y 0].length (.raw2hue (.name 0)) = true ∧
    Line.wellFormed 0 (.debounce (.num 1)) = true ∧ (∀ c, Line.debounce (.num 1) ≠ .command c) :=
  ⟨by decide, by decide, fun _ h => nomatch h⟩

/-- ReservedCodesRefused: both reserved codes, and the codes on either side of them. -/
theorem witness_reserved :
    ((block 0 [.command (cmd 6)]).program = .command (cmd 6) :: [] ∧ (cmd 6).op = 6#3) ∧
    ((block 0 [.command (cmd 7)]).program = .command (cmd 7) :: [] ∧ (cmd 7).op = 7#3) ∧
    ((cmd 5).op ≠ 6#3 ∧ (cmd 5).op ≠ 7#3) ∧ ((cmd 0).op ≠ 6#3 ∧ (cmd 0).op ≠ 7#3) := by decide

/-- DecodeEncodeAgree: a command with values on ports its operation does not use. -/
theorem witness_agree : decode (cmd 2) = .ok (.raw2hue 6) := rfl

/-- UnusedPortsIgnored: a command that is no DEBOUNCE and completes. -/
theorem witness_not_debounce : (cmd 2).op ≠ 5#3 ∧ (block 7 [.command (cmd 2)]).program = [.command (cmd 2)] ∧
    ∃ t, step (block 7 [.command (cmd 2)]) = .next t :=
  ⟨by decide, rfl, _, rfl⟩

/-- UnusedPortsIgnored: two commands that differ on every port RAW2HUE does not use. -/
theorem witness_unused :
    (cmd 2).op = ({ cmd 2 with a := 9, b := 9, c := 9, d := 9, e := 9, sw := 0 } : Command).op ∧
    OpCode.ofBits (cmd 2).op = .ok .raw2hue ∧
    ∀ p ∈ OpCode.raw2hue.ports,
      (cmd 2).pattern p = ({ cmd 2 with a := 9, b := 9, c := 9, d := 9, e := 9, sw := 0 } : Command).pattern p :=
  ⟨rfl, rfl, by decide⟩

/-- The code clauses of the six operation statements. -/
theorem witness_codes : (cmd 0).op = 0#3 ∧ (cmd 1).op = 1#3 ∧ (cmd 2).op = 2#3 ∧ (cmd 3).op = 3#3 ∧
    (cmd 4).op = 4#3 ∧ (cmd 5).op = 5#3 := by decide

/-- FxmulReturnsFloor: the two ends of the range of products, and the first product outside it on each side. -/
theorem witness_fxmul :
    (0x80000000 : PortWord).toInt * (32768 : PortWord).toInt = -2 ^ 46 ∧
    (25165821 : PortWord).toInt * (2796203 : PortWord).toInt = 2 ^ 46 - 1 ∧
    (0x80000000 : PortWord).toInt * (32769 : PortWord).toInt < -2 ^ 46 ∧
    2 ^ 46 ≤ (0x40000000 : PortWord).toInt * (65536 : PortWord).toInt := by decide

/-- FxmulRangeExact: nominal operands at both ends, and the largest operands below 2^21. -/
theorem witness_fxmul_range :
    (0 ≤ (0 : PortWord).toInt ∧ (32768 : PortWord).toInt ≤ 32768 ∧ 0 ≤ (32768 : PortWord).toInt) ∧
    |(2097151 : PortWord).toInt| < 2 ^ 21 ∧ |(-2097151 : PortWord).toInt| < 2 ^ 21 := by decide

/-- FxmulLaws: operands for the bounds and for monotonicity. -/
theorem witness_fxmul_laws : ((0 : Int) ≤ 7 ∧ (0 : Int) ≤ 32768 ∧ (32768 : Int) ≤ 32768) ∧
    ((0 : Int) ≤ 0 ∧ (-5 : Int) ≤ 3) := by decide

/-- ScaleReturnsTruncatedQuotient: results at both ends of the port, just outside it, a span of 0, and a reversed range. -/
theorem witness_scale :
    ((1 : PortWord).toInt ≠ (0 : PortWord).toInt ∧
      ((0x7FFFFFFF : PortWord).toInt - (0 : PortWord).toInt) * ((1 : PortWord).toInt - (0 : PortWord).toInt) =
        2 ^ 31 - 1) ∧
    ((2 ^ 31 - 1 : Int) = ((2 ^ 31 - 1 : Int) * 1).tdiv 1 + 0 ∧ (-2 ^ 31 : Int) = ((-2 ^ 31 : Int) * 1).tdiv 1 + 0) ∧
    ((2 ^ 31 : Int) = ((2 ^ 31 - 1 : Int) * 1).tdiv 1 + 1 ∧ (-2 ^ 31 - 1 : Int) = ((-2 ^ 31 : Int) * 1).tdiv 1 - 1) ∧
    (3 : PortWord).toInt = (3 : PortWord).toInt ∧ (0 : PortWord) ≠ (10 : PortWord) := by decide

/-- ScaleZeroSpanRefused and ScaleOverflowRefused: a span of 0, a span of -1, and the ends of the sample range. -/
theorem witness_scale_refused : (3 : PortWord).toInt = (3 : PortWord).toInt ∧
    (0x7FFFFFFE : PortWord).toInt ≠ (0x7FFFFFFF : PortWord).toInt ∧
    -32768 ≤ (-32768 : PortWord).toInt ∧ (32767 : PortWord).toInt ≤ 32767 := by decide

/-- ScaleMonotone, ScaleExtrapolates: an input range, an output range of one value, and inputs on either side. -/
theorem witness_scale_ranges : ((0 : Int) < 1 ∧ (5 : Int) ≤ 5 ∧ (-3 : Int) ≤ -3) ∧
    ((0 : Int) < 32768 ∧ (0 : Int) ≤ 255 ∧ (32768 : Int) < 32897 ∧ (32768 - 0 : Int) ≤ (32897 - 32768) * (255 - 0)) ∧
    ((-129 : Int) < 0 ∧ (32768 - 0 : Int) ≤ (0 - -129) * (255 - 0)) := by decide

/-- ScaleRoundsTowardZero, TruncatingDivision: divisors of either sign. -/
theorem witness_divisors : (2 : Int) ≠ 0 ∧ (-1 : Int) ≠ 0 ∧ (10 : Int) ≠ 11 := by decide

/-- Raw2hueRange, Raw2unitRange, RawSamplesNotClamped: nominal samples at both ends, and the samples next to the range. -/
theorem witness_raw : (0 ≤ (0 : RawWord).toInt ∧ (4095 : RawWord).toInt ≤ 4095) ∧ (119 : Int) < 120 ∧
    (4095 : Int) < 4096 := by decide

/-- SectorTableClosedRanges: the components exist, and every range has its two ends and a hue outside on each side. -/
theorem witness_sectors : (chroma 32768 32768 = 32768 ∧ secondComponent 32768 32768 32768 = 32768) ∧
    ((0 : Int) ≤ 0 ∧ (0 : Int) ≤ 32768 ∧ (32768 : Int) ≤ 65536 ∧ (65536 : Int) ≤ 98304 ∧ (98304 : Int) ≤ 131072 ∧
      (131072 : Int) ≤ 163840 ∧ (163840 : Int) ≤ 196608) ∧ (-1 : Int) < 0 ∧ (196608 : Int) < 196609 := by decide

/-- OutOfRangeHueIsGrey: the hues next to the range. -/
theorem witness_grey : (-1 : PortWord).toInt < 0 ∧ 196608 < (196609 : PortWord).toInt := by decide

/-- ConvertComponentBounds: nominal operands at both ends, a chroma of either sign, and both ends of the distance. -/
theorem witness_components : ((0 : Int) ≤ 0 ∧ (32768 : Int) ≤ 32768) ∧ 0 ≤ chroma 0 0 ∧
    (chroma (-1) 1 < 0 ∧ 0 < hueDist 1) ∧ hueDist 0 = 0 ∧ hueDist 32768 = 32768 := by decide

/-- InRangeColourDoesNotWrap: operands at both ends of their ranges. -/
theorem witness_in_range : ((0 : Int) ≤ 196608 ∧ (196608 : Int) ≤ 196608) ∧ ((0 : Int) ≤ 0 ∧ (0 : Int) ≤ 32768) ∧
    (32768 : Int) ≤ 32768 := by decide

/-- LowSampleClearsForTwelve, EnabledLowForElevenSamples: eleven samples and twelve. -/
theorem witness_samples : ([] : List Pin).length ≤ 11 ∧ (List.replicate 11 (1#1)).length ≤ 11 ∧
    (List.replicate 12 (1#1)).length = 12 := by decide

/-- DebounceClosedForm: exactly twelve samples. -/
theorem witness_closed_form : 12 ≤ (List.replicate 12 (1#1)).length := by decide

/-- EnabledRiseTime: from no high sample and from eleven. -/
theorem witness_rise : (0 < 12 ∧ (∀ j < 0, (0x000 : Hist).getLsbD j = true) ∧ (0x000 : Hist).getLsbD 0 = false) ∧
    (11 < 12 ∧ (∀ j < 11, (0x7FF : Hist).getLsbD j = true) ∧ (0x7FF : Hist).getLsbD 11 = false) := by decide

/-- HistoryWidthIndependence: the least width and a wider one. -/
theorem witness_width : (12 ≤ 12 ∧ (0x7FF#12).setWidth 12 = (0x7FF : Hist)) ∧
    (12 ≤ 16 ∧ (0xF7FF#16).setWidth 12 = (0x7FF : Hist)) := by decide

/-- ColourAndEnablePathsApart, PureOperationsCommute: a pure operation that completes and one that is refused, and two states
with the same history. -/
theorem witness_apart :
    (∃ s t : State, (∀ sw, Instr.raw2hue 120 ≠ .debounce sw) ∧ exec (.raw2hue 120) s = .next t) ∧
    (∃ (s : State) (r : Refusal), (∀ sw, Instr.scale 5 3 3 0 7 ≠ .debounce sw) ∧ exec (.scale 5 3 3 0 7) s = .refused r) ∧
    ∃ s s' : State, s ≠ s' ∧ s.hist = s'.hist :=
  ⟨⟨State.reset, _, by simp, rfl⟩, ⟨State.reset, .zeroSpan, by simp, rfl⟩,
   ⟨block 1 [], block 1 [.debounce (.num 1)], by decide, rfl⟩⟩

/-- OperationFrame: an operation of either kind that completes. -/
theorem witness_frame : (∃ s t : State, exec (.convert 0 0 0) s = .next t ∧ ∀ sw, Instr.convert 0 0 0 ≠ .debounce sw) ∧
    (∃ s t : State, exec (.debounce 1) s = .next t) :=
  ⟨⟨State.reset, _, rfl, by simp⟩, ⟨State.reset, _, rfl⟩⟩

/-- StepKeepsInvariant, EnabledLowForElevenSamples: a state with a flag and a colour returned that meets the invariant and
steps, and has returned at most eleven flags. -/
theorem witness_invariant : ∃ s t : State, s.Inv ∧ step s = .next t ∧ s.flags.length ≤ 11 ∧ s.results ≠ [] :=
  ⟨{ hist := 1, results := [.enabled false, .q 0xFF0000FF], program := [.debounce (.num 1)] }, _,
    ⟨fun v hv => by simp at hv; subst hv; decide, fun e older h => by cases h; decide, by decide⟩, rfl, by decide,
    by decide⟩

/-- TickRunsFiveOperations: the TICK of program P1 before another line, and one whose sample is an earlier line's result. -/
theorem witness_tick :
    (block 0 (tickLines (.num 120) (.num 4095) (.num 4095) (.num 1) ++ [.debounce (.num 0)])).program =
      tickLines (.num 120) (.num 4095) (.num 4095) (.num 1) ++ [.debounce (.num 0)] ∧
    operandValue [] (.num 120) = .ok (120 : RawWord).toInt ∧ operandValue [] (.num 4095) = .ok (4095 : RawWord).toInt ∧
    operandValue [] (.num 1) = .ok ((1 : Pin).toNat : Int) ∧
    operandValue [.y 120] (.name 0) = .ok (120 : RawWord).toInt :=
  ⟨rfl, rfl, rfl, rfl, rfl⟩

end Sys2Proof.Machine.Tests
end

section
/-!
Truncating division (R11). The truncated product `tdiv n d * d` does not depend on the sign of the divisor, so the law for
every divisor other than 0 follows from `tdiv_bounds`, which speaks of the positive ones.
-/
namespace Sys2Proof.Machine

/-- Truncation forgets the sign of the divisor. -/
theorem tdiv_mul_eq_tdiv_abs_mul_abs (n d : Int) : tdiv n d * d = tdiv n |d| * |d| := by
  obtain h | h := abs_choice d <;> rw [h]
  rw [tdiv, tdiv, Int.tdiv_neg, Int.neg_mul_neg]

theorem tdiv_mul_toward_zero_of_pos {n d : Int} (hd : 0 < d) :
    0 ≤ tdiv n d * d * n ∧ |tdiv n d * d| ≤ |n| ∧ |n| < |tdiv n d * d| + d := by
  obtain ⟨above, below⟩ := tdiv_bounds (n := n) hd
  obtain hn | hn := le_total 0 n
  · obtain ⟨hq, hle, hlt⟩ := above hn
    have hp : 0 ≤ tdiv n d * d := mul_nonneg hq hd.le
    rw [abs_of_nonneg hp, abs_of_nonneg hn]
    exact ⟨mul_nonneg hp hn, hle, hlt⟩
  · obtain ⟨hq, hle, hlt⟩ := below hn
    have hp : tdiv n d * d ≤ 0 := mul_nonpos_of_nonpos_of_nonneg hq hd.le
    rw [abs_of_nonpos hp, abs_of_nonpos hn]
    exact ⟨mul_nonneg_of_nonpos_of_nonpos hp hn, by omega, by omega⟩

/-- Settles O20: the law for the divisor's magnitude, carried to both signs; the four values are computed. -/
theorem truncatingDivision : Obligations.TruncatingDivision := by
  refine ⟨fun n d hd => ?_, by decide⟩
  rw [tdiv_mul_eq_tdiv_abs_mul_abs]
  exact tdiv_mul_toward_zero_of_pos (abs_pos.mpr hd)

end Sys2Proof.Machine
end

section
/-! The history right after reset (R29) and the flag of R25 on it: a history of zeros, of any width, leaves `enabled` low. -/
namespace Sys2Proof.Machine

@[simp] theorem State.reset_hist : State.reset.hist = 0 := rfl

/-- The lowest of the twelve bits `enabled` looks at is already low. -/
theorem histEnabled_zero {w : Nat} (hw : 12 ≤ w) : histEnabled (0 : BitVec w) = false := by
  refine Bool.eq_false_iff.mpr fun high => ?_
  have bit0 := (histEnabled_iff hw 0).mp high 0 (by decide)
  simp at bit0

/-- Settles O53: `enabled` is the flag of the history that reset leaves. -/
theorem resetClearsHistory : Obligations.ResetClearsHistory :=
  ⟨State.reset_hist, histEnabled_zero le_rfl⟩

end Sys2Proof.Machine
end

section
/-!
The decoder (R64, R67, R68). The operation codes are read back by `OpCode.ofBits`, and decoding looks at the code and at
the ports of the operation it selects.
-/
namespace Sys2Proof

theorem OpCode.ofBits_ok_iff (op : BitVec 3) (k : OpCode) : OpCode.ofBits op = .ok k ↔ op = k.bits := by
  revert op
  cases k <;> decide

theorem OpCode.ofBits_error_iff (op : BitVec 3) (e : DecodeError) :
    OpCode.ofBits op = .error e ↔ op = 6#3 ∨ op = 7#3 := by
  cases e
  revert op
  decide

@[simp] theorem opCodeOf_read (k : OpCode) (c : Command) : opCodeOf (k.read c) = k := by
  cases k <;> rfl

theorem decode_eq_map (c : Command) : decode c = (OpCode.ofBits c.op).map (·.read c) := by
  unfold decode
  cases OpCode.ofBits c.op <;> rfl

theorem decode_ok_iff (c : Command) (i : Instr) : decode c = .ok i ↔ ∃ k : OpCode, c.op = k.bits ∧ k.read c = i := by
  simp only [← OpCode.ofBits_ok_iff, decode_eq_map]
  cases OpCode.ofBits c.op <;> simp [Except.map]

/-- Decoding fails exactly on the reserved codes (R68). -/
theorem decode_error_iff (c : Command) (e : DecodeError) : decode c = .error e ↔ c.op = 6#3 ∨ c.op = 7#3 := by
  rw [← OpCode.ofBits_error_iff c.op e, decode_eq_map]
  cases OpCode.ofBits c.op <;> simp [Except.map]

theorem op_eq_of_decode_ok {c : Command} {i : Instr} (h : decode c = .ok i) : c.op = (opCodeOf i).bits := by
  obtain ⟨k, hop, rfl⟩ := (decode_ok_iff c i).mp h
  rw [opCodeOf_read, hop]

/-- An operation is made of the patterns on its own ports. -/
theorem OpCode.read_congr {k : OpCode} {c c' : Command} (h : ∀ p ∈ k.ports, c.pattern p = c'.pattern p) :
    k.read c = k.read c' := by
  cases k <;> simpa [OpCode.ports, Command.pattern, OpCode.read, BitVec.toNat_inj] using h

theorem decode_congr {c c' : Command} (hop : c.op = c'.op)
    (hports : ∀ k, OpCode.ofBits c.op = .ok k → ∀ p ∈ k.ports, c.pattern p = c'.pattern p) :
    decode c = decode c' := by
  rw [decode_eq_map, decode_eq_map, ← hop]
  cases hk : OpCode.ofBits c.op with
  | error e => rfl
  | ok k => simp only [Except.map, OpCode.read_congr (hports k hk)]

theorem OpCode.sw_mem_ports_iff (k : OpCode) : .sw ∈ k.ports ↔ k = .debounce := by
  cases k <;> decide

theorem Command.pattern_update_sw (c : Command) (sw : Pin) {p : Port} (hp : p ≠ .sw) :
    ({ c with sw := sw } : Command).pattern p = c.pattern p := by
  cases p with
  | sw => exact absurd rfl hp
  | _ => rfl

/-- `sw` is no port of an operation whose code is not DEBOUNCE's. -/
theorem decode_update_sw {c : Command} (sw : Pin) (hop : c.op ≠ 5#3) : decode { c with sw := sw } = decode c := by
  refine decode_congr rfl fun k hk p hp => c.pattern_update_sw sw ?_
  rintro rfl
  obtain rfl := k.sw_mem_ports_iff.mp hp
  exact hop ((OpCode.ofBits_ok_iff c.op .debounce).mp hk)

end Sys2Proof
end

section
/-! The step on a command given by its port patterns (R63, R68, R73), and the operations that leave `HIST` alone (R64). -/
namespace Sys2Proof.Machine

theorem decodeAtIssue_ok_iff (c : Command) (i : Instr) : decodeAtIssue c = .ok i ↔ decode c = .ok i := by
  unfold decodeAtIssue
  cases decode c with
  | ok j => simp
  | error e => cases e; simp

theorem decodeAtIssue_of_decode_error {c : Command} {e : DecodeError} (h : decode c = .error e) :
    decodeAtIssue c = .error .reservedOp := by
  cases e
  rw [decodeAtIssue, h]

theorem step_command_of_decode_ok {s : State} {c : Command} {rest : List Line} {i : Instr}
    (hprog : s.program = .command c :: rest) (hdec : decode c = .ok i) : step s = exec i (s.withProgram rest) := by
  simp only [step, hprog, issue_command, (decodeAtIssue_ok_iff c i).mpr hdec]

theorem step_command_of_decode_error {s : State} {c : Command} {rest : List Line} {e : DecodeError}
    (hprog : s.program = .command c :: rest) (hdec : decode c = .error e) : step s = .refused .reservedOp := by
  simp only [step, hprog, issue_command, decodeAtIssue_of_decode_error hdec]

/-- Of a command at the head of the program the step sees only what it decodes to. -/
theorem step_command_congr {c c' : Command} (h : decode c = decode c') (s : State) (rest : List Line) :
    step { s with program := .command c :: rest } = step { s with program := .command c' :: rest } := by
  cases hc : decode c with
  | error e => rw [step_command_of_decode_error rfl hc, step_command_of_decode_error rfl (h ▸ hc)]
  | ok i => rw [step_command_of_decode_ok rfl hc, step_command_of_decode_ok rfl (h ▸ hc)]; rfl

theorem exec_hist_of_not_debounce {i : Instr} {s t : State} (hi : ∀ sw, i ≠ .debounce sw) (h : exec i s = .next t) :
    t.hist = s.hist := by
  obtain ⟨v, rfl⟩ | ⟨hp, sat, val, rfl⟩ | ⟨sw, hsw, -⟩ := exec_next_cases h
  · rfl
  · rfl
  · exact absurd hsw (hi sw)

theorem step_command_hist_of_not_debounce {s t : State} {c : Command} {rest : List Line} (hop : c.op ≠ 5#3)
    (hprog : s.program = .command c :: rest) (h : step s = .next t) : t.hist = s.hist := by
  cases hdec : decode c with
  | error e => rw [step_command_of_decode_error hprog hdec] at h; cases h
  | ok i =>
    rw [step_command_of_decode_ok hprog hdec] at h
    have hi : ∀ sw, i ≠ .debounce sw := by
      rintro sw rfl
      exact hop (op_eq_of_decode_ok hdec)
    exact (exec_hist_of_not_debounce hi h).trans (State.withProgram_hist s rest)

/-- Settles O6: decoding fails on the codes 6 and 7 and on no other. -/
theorem reservedCodesRefused : Obligations.ReservedCodesRefused := by
  refine ⟨fun s c rest hprog hop => ?_, fun c h6 h7 => ?_⟩
  · exact step_command_of_decode_error hprog ((decode_error_iff c .reservedOp).mpr hop)
  · cases hdec : decode c with
    | ok i => exact ⟨i, rfl⟩
    | error e =>
      obtain hop | hop := (decode_error_iff c e).mp hdec
      · exact absurd hop h6
      · exact absurd hop h7

/-- Settles O9: the decoder reads only the ports of the selected operation, and the step sees only what was decoded. -/
theorem unusedPortsIgnored : Obligations.UnusedPortsIgnored := by
  refine ⟨fun c c' hop hports => ?_, fun c sw => decode_update_sw sw, fun s t c rest => ?_⟩
  · have hdec := decode_congr hop hports
    exact ⟨hdec, step_command_congr hdec⟩
  · exact step_command_hist_of_not_debounce

end Sys2Proof.Machine
end

section
/-!
The packed colour (R60). By `packRgba_eq_append` it is four bytes side by side, so its number is the sum of its fields at
their places and each field is read back whole.
-/
namespace Sys2Proof.Machine

theorem toNat_append_eq_add {n m : Nat} (x : BitVec n) (y : BitVec m) :
    (x ++ y).toNat = x.toNat * 2 ^ m + y.toNat := by
  rw [BitVec.toNat_append, ← Nat.shiftLeft_add_eq_or_of_lt y.isLt, Nat.shiftLeft_eq]

theorem packRgba_toNat (r g b a : Byte) :
    (packRgba r g b a).toNat = r.toNat * 2 ^ 24 + g.toNat * 2 ^ 16 + b.toNat * 2 ^ 8 + a.toNat := by
  rw [packRgba_eq_append]
  simp only [toNat_append_eq_add]
  omega

@[simp] theorem redByte_packRgba (r g b a : Byte) : redByte (packRgba r g b a) = r := by
  rw [packRgba_eq_append, redByte, BitVec.extractLsb'_append_eq_of_le (by decide),
    BitVec.extractLsb'_append_eq_of_le (by decide)]
  exact BitVec.extractLsb'_append_eq_left

@[simp] theorem greenByte_packRgba (r g b a : Byte) : greenByte (packRgba r g b a) = g := by
  rw [packRgba_eq_append, greenByte, BitVec.extractLsb'_append_eq_of_le (by decide),
    BitVec.extractLsb'_append_eq_of_le (by decide)]
  exact BitVec.extractLsb'_append_eq_right

@[simp] theorem blueByte_packRgba (r g b a : Byte) : blueByte (packRgba r g b a) = b := by
  rw [packRgba_eq_append, blueByte, BitVec.extractLsb'_append_eq_of_le (by decide)]
  exact BitVec.extractLsb'_append_eq_right

@[simp] theorem alphaByte_packRgba (r g b a : Byte) : alphaByte (packRgba r g b a) = a := by
  rw [packRgba_eq_append]
  exact BitVec.extractLsb'_append_eq_right

/-- Settles O37: the number of the packed colour, and its four fields read back. -/
theorem packedColourLayout : Obligations.PackedColourLayout := fun r g b a =>
  ⟨packRgba_toNat r g b a, redByte_packRgba r g b a, greenByte_packRgba r g b a, blueByte_packRgba r g b a,
    alphaByte_packRgba r g b a⟩

end Sys2Proof.Machine
end

section
/-!
A checked return on `Y` (R88, R93). It answers by the exact value alone: a value that fits the port is returned by the pattern
that stands for it, every other value is refused.
-/
namespace Sys2Proof.Machine

theorem fitsY_iff (v : Int) : fitsY v = true ↔ -2 ^ 31 ≤ v ∧ v < 2 ^ 31 := by
  simp [fitsY]

@[simp] theorem fitsY_toInt (y : PortWord) : fitsY y.toInt = true :=
  (fitsY_iff _).mpr ⟨BitVec.le_toInt y, BitVec.toInt_lt⟩

@[simp] theorem returnYChecked_toInt (y : PortWord) (s : State) :
    returnYChecked y.toInt s = .next (s.withResult (.y y)) := by
  simp [returnYChecked_eq]

/-- The pattern returned is the same in every state. -/
theorem returnYChecked_of_fitsY {v : Int} (h : fitsY v = true) :
    ∃ y : PortWord, y.toInt = v ∧ ∀ s, returnYChecked v s = .next (s.withResult (.y y)) :=
  ⟨BitVec.ofInt 32 v, toInt_ofInt_of_fitsY h, fun s => by rw [returnYChecked_eq, if_pos h]⟩

theorem returnYChecked_refused_iff (v : Int) (s : State) :
    returnYChecked v s = .refused .resultOverflow ↔ ¬ fitsY v = true := by
  rw [returnYChecked_eq]
  split <;> simp [*]

/-- Neither the refusal nor the result of a checked return depends on the state (R99). -/
theorem returnYChecked_pure (v : Int) :
    (∃ r, ∀ s, returnYChecked v s = .refused r) ∨
    (∃ y : PortWord, ∀ s, returnYChecked v s = .next (s.withResult (.y y))) := by
  by_cases h : fitsY v = true
  · obtain ⟨y, -, hy⟩ := returnYChecked_of_fitsY h
    exact .inr ⟨y, hy⟩
  · exact .inl ⟨.resultOverflow, fun s => (returnYChecked_refused_iff v s).mpr h⟩

end Sys2Proof.Machine
end

section
/-! FXMUL (R85 to R88): the function `fxmul` on the integers, then the operation as a checked return of it. -/
namespace Sys2Proof.Machine

theorem fxmul_eq_fdiv (a b : Int) : fxmul a b = (a * b).fdiv 32768 :=
  asr15_eq_fdiv _

/-- `fxmul` is the greatest integer that, times 32768, does not exceed the product. -/
theorem fxmul_mul_le_and_lt (a b : Int) :
    fxmul a b * 32768 ≤ a * b ∧ a * b < (fxmul a b + 1) * 32768 := by
  rw [fxmul_eq_ediv]
  omega

@[simp] theorem fxmul_one (a : Int) : fxmul a 32768 = a := by
  rw [fxmul_eq_ediv, Int.mul_ediv_cancel _ (by decide)]

@[simp] theorem fxmul_zero (a : Int) : fxmul a 0 = 0 := by
  simp [fxmul_eq_ediv]

/-- A factor from 0 to 1.0 takes a number that is not negative to one between 0 and itself. -/
theorem fxmul_mem_of_factor_le_one {a b : Int} (ha : 0 ≤ a) (hb : 0 ≤ b) (hb' : b ≤ 32768) :
    0 ≤ fxmul a b ∧ fxmul a b ≤ a := by
  have hlo : 0 ≤ a * b := mul_nonneg ha hb
  have hhi : a * b ≤ a * 32768 := mul_le_mul_of_nonneg_left hb' ha
  rw [fxmul_eq_ediv]
  omega

theorem abs_mul_lt_two_pow_42 {a b : Int} (ha : |a| < 2 ^ 21) (hb : |b| < 2 ^ 21) : |a * b| < 2 ^ 42 :=
  calc |a * b| = |a| * |b| := abs_mul a b
    _ < 2 ^ 21 * 2 ^ 21 := mul_lt_mul'' ha hb (abs_nonneg a) (abs_nonneg b)
    _ = 2 ^ 42 := by norm_num

theorem exec_fxmul (a b : PortWord) (s : State) :
    exec (.fxmul a b) s = returnYChecked (fxmul a.toInt b.toInt) s := rfl

theorem exec_fxmul_of_eq_toInt {a b y : PortWord} (h : fxmul a.toInt b.toInt = y.toInt) (s : State) :
    exec (.fxmul a b) s = .next (s.withResult (.y y)) := by
  rw [exec_fxmul, h, returnYChecked_toInt]

theorem exec_fxmul_of_product_fits {a b : PortWord} (lo : -2 ^ 46 ≤ a.toInt * b.toInt)
    (hi : a.toInt * b.toInt < 2 ^ 46) (s : State) :
    ∃ y : PortWord, y.toInt = fxmul a.toInt b.toInt ∧ exec (.fxmul a b) s = .next (s.withResult (.y y)) := by
  obtain ⟨y, hy, hret⟩ := returnYChecked_of_fitsY ((fitsY_fxmul_iff _ _).mpr ⟨lo, hi⟩)
  exact ⟨y, hy, hret s⟩

theorem exec_fxmul_refused_iff (a b : PortWord) (s : State) :
    exec (.fxmul a b) s = .refused .resultOverflow ↔
      ¬ (-2 ^ 46 ≤ a.toInt * b.toInt ∧ a.toInt * b.toInt < 2 ^ 46) := by
  rw [exec_fxmul, returnYChecked_refused_iff, fitsY_fxmul_iff]

/-- Settles O10: the product decides between the floor and the refusal; the corner cases are values of `fxmul` that are
already on the ports. -/
theorem fxmulReturnsFloor : Obligations.FxmulReturnsFloor := by
  refine ⟨fun c hop => (decode_ok_iff _ _).mpr ⟨.fxmul, hop, rfl⟩, fun a b s lo hi => ?_, fun a b s hout => ?_,
    fun a s => ⟨?_, ?_⟩, exec_fxmul_of_eq_toInt (by decide)⟩
  · rw [← fxmul_eq_fdiv]
    exact exec_fxmul_of_product_fits lo hi s
  · exact (exec_fxmul_refused_iff a b s).mpr (by omega)
  · exact exec_fxmul_of_eq_toInt (fxmul_one _) s
  · exact exec_fxmul_of_eq_toInt (fxmul_zero _) s

/-- Settles O11: the nominal and the small operands have products within the range in which FXMUL completes. -/
theorem fxmulRangeExact : Obligations.FxmulRangeExact := by
  refine ⟨exec_fxmul_refused_iff, fun a b s ha ha' hb hb' => ?_, fun a b s ha hb => ?_, fun s => ⟨?_, ?_, ?_, ?_⟩⟩
  · obtain ⟨hlo, hhi⟩ := fxmul_mem_of_factor_le_one ha hb hb'
    have hfit : fitsY (fxmul a.toInt b.toInt) = true := (fitsY_iff _).mpr ⟨by omega, by omega⟩
    obtain ⟨y, hy, hret⟩ := returnYChecked_of_fitsY hfit
    exact ⟨y, by omega, by omega, hret s⟩
  · have hprod := abs_mul_lt_two_pow_42 ha hb
    obtain ⟨hlo, hhi⟩ := abs_lt.mp hprod
    obtain ⟨y, -, hret⟩ := exec_fxmul_of_product_fits (a := a) (b := b) (by omega) (by omega) s
    exact ⟨hprod, _, hret⟩
  · exact exec_fxmul_of_eq_toInt (by decide) s
  · exact exec_fxmul_of_eq_toInt (by decide) s
  · exact (exec_fxmul_refused_iff _ _ s).mpr (by decide)
  · exact exec_fxmul_of_eq_toInt (by decide) s

/-- Settles O12: the arithmetic shift is floor division; the values of R87 are computed. -/
theorem fxmulFunctionIsFloor : Obligations.FxmulFunctionIsFloor :=
  ⟨fun a b => ⟨fxmul_eq_fdiv a b, fxmul_mul_le_and_lt a b⟩, by decide⟩

end Sys2Proof.Machine
end

section
/-! The function `scale_linear` on the integers (R91, R94, R96, R97). -/
namespace Sys2Proof.Machine

theorem scaleLinear_eq_tdiv (x inMin inMax outMin outMax : Int) : scaleLinear x inMin inMax outMin outMax =
    ((x - inMin) * (outMax - outMin)).tdiv (inMax - inMin) + outMin := rfl

@[simp] theorem scaleLinear_inMin (inMin inMax outMin outMax : Int) :
    scaleLinear inMin inMin inMax outMin outMax = outMin := by
  simp [scaleLinear_eq_tdiv]

theorem scaleLinear_inMax {inMin inMax : Int} (hspan : inMax ≠ inMin) (outMin outMax : Int) :
    scaleLinear inMax inMin inMax outMin outMax = outMax := by
  rw [scaleLinear_eq_tdiv, Int.mul_tdiv_cancel_left _ (sub_ne_zero.mpr hspan), sub_add_cancel]

/-- From the top of the input range up, the excess is scaled by itself and rounded down. -/
theorem scaleLinear_of_inMax_le {x inMin inMax outMin outMax : Int} (hin : inMin < inMax) (hout : outMin ≤ outMax)
    (hx : inMax ≤ x) : scaleLinear x inMin inMax outMin outMax =
      outMax + (x - inMax) * (outMax - outMin) / (inMax - inMin) := by
  have hprod : 0 ≤ (x - inMin) * (outMax - outMin) := mul_nonneg (by omega) (by omega)
  have hsplit : (x - inMin) * (outMax - outMin) =
      (x - inMax) * (outMax - outMin) + (inMax - inMin) * (outMax - outMin) := by ring
  rw [scaleLinear_eq_tdiv, Int.tdiv_eq_ediv_of_nonneg hprod, hsplit, Int.add_mul_ediv_left _ _ (by omega)]
  ring

/-- From the bottom of the input range down, the shortfall is scaled by itself and rounded down. -/
theorem scaleLinear_of_le_inMin {x inMin outMin outMax : Int} (inMax : Int) (hout : outMin ≤ outMax)
    (hx : x ≤ inMin) : scaleLinear x inMin inMax outMin outMax =
      outMin - (inMin - x) * (outMax - outMin) / (inMax - inMin) := by
  have hprod : 0 ≤ (inMin - x) * (outMax - outMin) := mul_nonneg (by omega) (by omega)
  have hneg : (x - inMin) * (outMax - outMin) = -((inMin - x) * (outMax - outMin)) := by ring
  rw [scaleLinear_eq_tdiv, hneg, Int.neg_tdiv, Int.tdiv_eq_ediv_of_nonneg hprod]
  ring

/-- The channel scaling gives 0 exactly where the exact product is below the span in magnitude. -/
theorem scaleLinear_channel_eq_zero_iff (v : Int) : scaleLinear v 0 32768 0 255 = 0 ↔ -128 ≤ v ∧ v ≤ 128 := by
  have hq := tdiv_bounds (n := v * 255) (d := 32768) (by decide)
  have hv : scaleLinear v 0 32768 0 255 = tdiv (v * 255) 32768 := by simp [scaleLinear]
  omega

/-- Settles O18: the quotient is a truncating division, whose law O20 is; the channel's zeros follow from its bounds. -/
theorem scaleRoundsTowardZero : Obligations.ScaleRoundsTowardZero := by
  refine ⟨fun x inMin inMax outMin outMax hspan => ?_, scaleLinear_channel_eq_zero_iff, by decide⟩
  obtain ⟨law, -⟩ := truncatingDivision
  exact ⟨_, rfl, law _ _ (sub_ne_zero.mpr hspan)⟩

/-- Settles O19: beyond an end of the input range the result is the end of the output range and the scaled excess, which is
not negative, and is at least 1 once the excess is worth one count. -/
theorem scaleExtrapolates : Obligations.ScaleExtrapolates := by
  refine ⟨fun x inMin inMax outMin outMax hin hout hx => ?_, fun x inMin inMax outMin outMax hin hout hx => ?_,
    by decide⟩
  all_goals have hspan : 0 < inMax - inMin := sub_pos.mpr hin
  · have hexc : 0 ≤ (x - inMax) * (outMax - outMin) := mul_nonneg (by omega) (by omega)
    rw [scaleLinear_of_inMax_le hin hout hx.le]
    refine ⟨le_add_of_nonneg_right (Int.ediv_nonneg hexc hspan.le), fun hcount => ?_⟩
    exact lt_add_of_pos_right _ (Int.le_ediv_of_mul_le hspan (by omega))
  · have hexc : 0 ≤ (inMin - x) * (outMax - outMin) := mul_nonneg (by omega) (by omega)
    rw [scaleLinear_of_le_inMin inMax hout hx.le]
    refine ⟨sub_le_self _ (Int.ediv_nonneg hexc hspan.le), fun hcount => ?_⟩
    exact sub_lt_self _ (Int.le_ediv_of_mul_le hspan (by omega))

end Sys2Proof.Machine
end

section
/-! SCALE (R90, R92, R93): the operation as a test of the span and a checked return of `scale_linear`. -/
namespace Sys2Proof.Machine

theorem exec_scale_of_span_zero {inMin inMax : PortWord} (hspan : inMax.toInt = inMin.toInt)
    (x outMin outMax : PortWord) (s : State) :
    exec (.scale x inMin inMax outMin outMax) s = .refused .zeroSpan :=
  if_pos (BitVec.toInt_inj.mp hspan)

theorem exec_scale_of_span_ne_zero {inMin inMax : PortWord} (hspan : inMax.toInt ≠ inMin.toInt)
    (x outMin outMax : PortWord) (s : State) : exec (.scale x inMin inMax outMin outMax) s =
      returnYChecked (scaleLinear x.toInt inMin.toInt inMax.toInt outMin.toInt outMax.toInt) s :=
  if_neg (BitVec.toInt_ne.mp hspan)

theorem exec_scale_of_eq_toInt {x inMin inMax outMin outMax y : PortWord} (hspan : inMax.toInt ≠ inMin.toInt)
    (h : scaleLinear x.toInt inMin.toInt inMax.toInt outMin.toInt outMax.toInt = y.toInt) (s : State) :
    exec (.scale x inMin inMax outMin outMax) s = .next (s.withResult (.y y)) := by
  rw [exec_scale_of_span_ne_zero hspan, h, returnYChecked_toInt]

theorem exec_scale_of_fits {x inMin inMax outMin outMax : PortWord} {v : Int} (hspan : inMax.toInt ≠ inMin.toInt)
    (hv : scaleLinear x.toInt inMin.toInt inMax.toInt outMin.toInt outMax.toInt = v) (lo : -2 ^ 31 ≤ v)
    (hi : v < 2 ^ 31) (s : State) :
    ∃ y : PortWord, y.toInt = v ∧ exec (.scale x inMin inMax outMin outMax) s = .next (s.withResult (.y y)) := by
  obtain ⟨y, hy, hret⟩ := returnYChecked_of_fitsY ((fitsY_iff v).mpr ⟨lo, hi⟩)
  exact ⟨y, hy, by rw [exec_scale_of_span_ne_zero hspan, hv, hret]⟩

theorem exec_scale_refused_iff {x inMin inMax outMin outMax : PortWord} (hspan : inMax.toInt ≠ inMin.toInt)
    (s : State) : exec (.scale x inMin inMax outMin outMax) s = .refused .resultOverflow ↔
      ¬ (-2 ^ 31 ≤ scaleLinear x.toInt inMin.toInt inMax.toInt outMin.toInt outMax.toInt ∧
        scaleLinear x.toInt inMin.toInt inMax.toInt outMin.toInt outMax.toInt < 2 ^ 31) := by
  rw [exec_scale_of_span_ne_zero hspan, returnYChecked_refused_iff, fitsY_iff]

/-- From an output range that begins at 0, a product below 2^31 spans in magnitude gives a quotient that fits. -/
theorem exec_scale_completes_of_product_lt {x inMin inMax outMax : PortWord} (hspan : 0 < inMax.toInt - inMin.toInt)
    (hprod : |(x.toInt - inMin.toInt) * outMax.toInt| < 2 ^ 31 * (inMax.toInt - inMin.toInt)) (s : State) :
    ∃ t, exec (.scale x inMin inMax 0 outMax) s = .next t := by
  have hv : scaleLinear x.toInt inMin.toInt inMax.toInt (0 : PortWord).toInt outMax.toInt =
      tdiv ((x.toInt - inMin.toInt) * outMax.toInt) (inMax.toInt - inMin.toInt) := by simp [scaleLinear]
  obtain ⟨-, hle, -⟩ := tdiv_mul_toward_zero_of_pos (n := (x.toInt - inMin.toInt) * outMax.toInt) hspan
  rw [abs_mul, abs_of_pos hspan] at hle
  obtain ⟨lo, hi⟩ := abs_lt.mp (lt_of_mul_lt_mul_right (hle.trans_lt hprod) hspan.le)
  obtain ⟨y, -, hret⟩ := exec_scale_of_fits (by omega) hv lo.le hi s
  exact ⟨_, hret⟩

/-- Settles O14: the span decides first, then the size of the exact value; the ends of the output range always fit. -/
theorem scaleReturnsTruncatedQuotient : Obligations.ScaleReturnsTruncatedQuotient := by
  refine ⟨fun c hop => (decode_ok_iff _ _).mpr ⟨.scale, hop, rfl⟩, fun x inMin inMax outMin outMax s v hspan hv lo hi => ?_,
    fun x inMin inMax outMin outMax s v hspan hv hout => ?_,
    fun x inMin inMax outMin outMax s hspan => exec_scale_of_span_zero hspan x outMin outMax s,
    fun inMin inMax outMin outMax s hne => ?_, exec_scale_of_eq_toInt (by decide) (by decide)⟩
  · exact exec_scale_of_fits hspan hv.symm lo (by omega) s
  · rw [exec_scale_refused_iff hspan, scaleLinear_eq_tdiv, ← hv]
    omega
  · have hspan : inMax.toInt ≠ inMin.toInt := BitVec.toInt_ne.mpr hne
    exact ⟨exec_scale_of_eq_toInt hspan (scaleLinear_inMin _ _ _ _) s,
      exec_scale_of_eq_toInt hspan (scaleLinear_inMax hspan _ _) s⟩

/-- Settles O15: the span is tested before the result. -/
theorem scaleZeroSpanRefused : Obligations.ScaleZeroSpanRefused :=
  fun x _ _ outMin outMax s hspan => exec_scale_of_span_zero hspan x outMin outMax s

/-- Settles O16: each of the block's own spans is large enough for the quotient of its products to stay on the port. -/
theorem scaleOverflowRefused : Obligations.ScaleOverflowRefused := by
  refine ⟨fun x inMin inMax outMin outMax s hspan => exec_scale_refused_iff hspan s, fun x s lo hi => ⟨?_, ?_⟩,
    fun x s => ?_⟩
  all_goals refine exec_scale_completes_of_product_lt (by decide) (abs_lt.mpr ?_) s
  · change -(2 ^ 31 * 3975) < (x.toInt - 120) * 360 ∧ (x.toInt - 120) * 360 < 2 ^ 31 * 3975
    omega
  · change -(2 ^ 31 * 3975) < (x.toInt - 120) * 32768 ∧ (x.toInt - 120) * 32768 < 2 ^ 31 * 3975
    omega
  · have lo := BitVec.le_toInt x
    have hi := BitVec.toInt_lt (x := x)
    change -(2 ^ 31 * 32768) < (x.toInt - 0) * 255 ∧ (x.toInt - 0) * 255 < 2 ^ 31 * 32768
    omega

/-- Settles O21: a zero span is refused in every state, and everything else is a checked return of a value that the operands
alone give. -/
theorem fixedPointPrimitivesArePure : Obligations.FixedPointPrimitivesArePure := by
  refine ⟨fun a b => returnYChecked_pure _, fun x inMin inMax outMin outMax => ?_⟩
  by_cases hspan : inMax.toInt = inMin.toInt
  · exact .inl ⟨.zeroSpan, exec_scale_of_span_zero hspan x outMin outMax⟩
  · simp only [exec_scale_of_span_ne_zero hspan]
    exact returnYChecked_pure _

end Sys2Proof.Machine
end

section
/-!
A return on `Y` that is not checked (R109, R114), and the truncating divisions of RAW2HUE and RAW2UNIT (R106, R112) on the
integers: the degrees, the hue-prime made of them, the fraction. `tdiv_bounds` brackets each quotient, so signs, ends and
ranges are linear facts about the sample.
-/
namespace Sys2Proof.Machine

/-- The pattern returned is the same in every state. -/
theorem returnY_of_fitsY {v : Int} (h : fitsY v = true) :
    ∃ y : PortWord, y.toInt = v ∧ ∀ s, returnY v s = .next (s.withResult (.y y)) :=
  ⟨BitVec.ofInt 32 v, toInt_ofInt_of_fitsY h, fun _ => rfl⟩

theorem rawDegrees_eq_tdiv (raw : Int) : rawDegrees raw = tdiv ((raw - 120) * 360) 3975 :=
  add_zero _

theorem raw2hue_eq_tdiv_rawDegrees (raw : Int) : raw2hue raw = tdiv (rawDegrees raw * 32768) 60 := rfl

theorem raw2unit_eq_tdiv (raw : Int) : raw2unit raw = tdiv ((raw - 120) * 32768) 3975 :=
  raw2unit_eq raw

theorem rawDegrees_neg_iff (raw : Int) : rawDegrees raw < 0 ↔ raw < 109 := by
  have hdeg := tdiv_bounds (n := (raw - 120) * 360) (d := 3975) (by decide)
  rw [rawDegrees_eq_tdiv]
  omega

theorem lt_rawDegrees_iff (raw : Int) : 360 < rawDegrees raw ↔ 4106 < raw := by
  have hdeg := tdiv_bounds (n := (raw - 120) * 360) (d := 3975) (by decide)
  rw [rawDegrees_eq_tdiv]
  omega

/-- Hue-prime is negative exactly for negative degrees, since one degree is worth more than one count. -/
theorem raw2hue_neg_iff (raw : Int) : raw2hue raw < 0 ↔ raw < 109 := by
  have hhue := tdiv_bounds (n := rawDegrees raw * 32768) (d := 60) (by decide)
  rw [← rawDegrees_neg_iff, raw2hue_eq_tdiv_rawDegrees]
  omega

/-- Hue-prime leaves the closed hue range at the top exactly above 360 degrees. -/
theorem lt_raw2hue_iff (raw : Int) : 196608 < raw2hue raw ↔ 4106 < raw := by
  have hhue := tdiv_bounds (n := rawDegrees raw * 32768) (d := 60) (by decide)
  rw [← lt_rawDegrees_iff, raw2hue_eq_tdiv_rawDegrees]
  omega

theorem rawDegrees_mem (raw : RawWord) : -2978 ≤ rawDegrees raw.toInt ∧ rawDegrees raw.toInt ≤ 2956 := by
  have lo := BitVec.le_toInt raw
  have hi := BitVec.toInt_lt (x := raw)
  have hdeg := tdiv_bounds (n := (raw.toInt - 120) * 360) (d := 3975) (by decide)
  rw [rawDegrees_eq_tdiv]
  omega

theorem raw2hue_mem (raw : RawWord) : -1626385 ≤ raw2hue raw.toInt ∧ raw2hue raw.toInt ≤ 1614370 := by
  have hdeg := rawDegrees_mem raw
  have hhue := tdiv_bounds (n := rawDegrees raw.toInt * 32768) (d := 60) (by decide)
  rw [raw2hue_eq_tdiv_rawDegrees]
  omega

/-- One count of the sample is worth more than one count of the fraction. -/
theorem raw2unit_neg_iff (raw : Int) : raw2unit raw < 0 ↔ raw < 120 := by
  have hunit := tdiv_bounds (n := (raw - 120) * 32768) (d := 3975) (by decide)
  rw [raw2unit_eq_tdiv]
  omega

theorem lt_raw2unit_iff (raw : Int) : 32768 < raw2unit raw ↔ 4095 < raw := by
  have hunit := tdiv_bounds (n := (raw - 120) * 32768) (d := 3975) (by decide)
  rw [raw2unit_eq_tdiv]
  omega

theorem raw2unit_eq_zero_iff (raw : Int) : raw2unit raw = 0 ↔ raw = 120 := by
  have hunit := tdiv_bounds (n := (raw - 120) * 32768) (d := 3975) (by decide)
  rw [raw2unit_eq_tdiv]
  omega

theorem raw2unit_mem (raw : RawWord) : -271112 ≤ raw2unit raw.toInt ∧ raw2unit raw.toInt ≤ 269126 := by
  have lo := BitVec.le_toInt raw
  have hi := BitVec.toInt_lt (x := raw)
  have hunit := tdiv_bounds (n := (raw.toInt - 120) * 32768) (d := 3975) (by decide)
  rw [raw2unit_eq_tdiv]
  omega

end Sys2Proof.Machine
end

section
/-! RAW2HUE and RAW2UNIT (R105, R107, R111): the operations as returns, never refused, of `raw2hue` and `raw2unit`. -/
namespace Sys2Proof.Machine

theorem exec_raw2hue (raw : RawWord) (s : State) : exec (.raw2hue raw) s = returnY (raw2hue raw.toInt) s := rfl

theorem exec_raw2unit (raw : RawWord) (s : State) : exec (.raw2unit raw) s = returnY (raw2unit raw.toInt) s := rfl

/-- Every sample's hue-prime fits the port, so RAW2HUE returns its exact value. -/
theorem exec_raw2hue_returns (raw : RawWord) : ∃ y : PortWord, y.toInt = raw2hue raw.toInt ∧
    ∀ s, exec (.raw2hue raw) s = .next (s.withResult (.y y)) := by
  obtain ⟨lo, hi⟩ := raw2hue_mem raw
  simp only [exec_raw2hue]
  exact returnY_of_fitsY ((fitsY_iff _).mpr ⟨by omega, by omega⟩)

/-- Every sample's fraction fits the port, so RAW2UNIT returns its exact value. -/
theorem exec_raw2unit_returns (raw : RawWord) : ∃ y : PortWord, y.toInt = raw2unit raw.toInt ∧
    ∀ s, exec (.raw2unit raw) s = .next (s.withResult (.y y)) := by
  obtain ⟨lo, hi⟩ := raw2unit_mem raw
  simp only [exec_raw2unit]
  exact returnY_of_fitsY ((fitsY_iff _).mpr ⟨by omega, by omega⟩)

/-- Settles O22: the pattern on `Y` has the value of `raw2hue`, which leaves the closed hue range below 109 and above 4106. -/
theorem raw2hueReturnsHuePrime : Obligations.Raw2hueReturnsHuePrime := by
  refine ⟨fun c hop => (decode_ok_iff _ _).mpr ⟨.raw2hue, hop, rfl⟩, fun raw => ?_, raw2hue_eq, by decide⟩
  obtain ⟨y, hy, hret⟩ := exec_raw2hue_returns raw
  rw [← raw2hue_eq]
  exact ⟨y, hy, hy ▸ (raw2hue_neg_iff _).symm, hy ▸ (lt_raw2hue_iff _).symm, hret⟩

/-- Settles O24: the degrees are a scaling, which O19 extrapolates beyond both ends of its range; the operations are
returns of an unclamped value. -/
theorem rawSamplesNotClamped : Obligations.RawSamplesNotClamped := by
  obtain ⟨above, below, -⟩ := scaleExtrapolates
  refine ⟨fun raw hlow => ?_, fun raw hhigh => ?_, fun raw s => ?_, fun raw s => ?_, by decide⟩
  · exact (below raw 120 4095 0 360 (by decide) (by decide) hlow).1
  · exact (above raw 120 4095 0 360 (by decide) (by decide) hhigh).1
  · obtain ⟨y, -, hret⟩ := exec_raw2hue_returns raw
    exact ⟨_, hret s⟩
  · obtain ⟨y, -, hret⟩ := exec_raw2unit_returns raw
    exact ⟨_, hret s⟩

/-- Settles O26: the pattern on `Y` has the value of `raw2unit`, whose sign is that of the sample counted from 120. -/
theorem raw2unitReturnsFraction : Obligations.Raw2unitReturnsFraction := by
  refine ⟨fun c hop => (decode_ok_iff _ _).mpr ⟨.raw2unit, hop, rfl⟩, fun raw => ?_, raw2unit_eq, by decide⟩
  obtain ⟨y, hy, hret⟩ := exec_raw2unit_returns raw
  rw [← raw2unit_eq]
  exact ⟨y, hy, hy ▸ raw2unit_eq_zero_iff _, hy ▸ raw2unit_neg_iff _, hy ▸ lt_raw2unit_iff _, hret⟩

end Sys2Proof.Machine
end

section
/-! One channel (R129, R130): the truncated quotient of the scaling, and the low eight bits of it. -/
namespace Sys2Proof.Machine

theorem scaleLinear_channel_eq_tdiv (ch : Int) : scaleLinear ch 0 32768 0 255 = (ch * 255).tdiv 32768 := by
  simp [scaleLinear_eq_tdiv]

theorem trunc8_toNat (v : Int) : ((trunc8 v).toNat : Int) = v % 256 := by
  rw [trunc8, BitVec.toNat_ofInt]
  omega

theorem channelByte_toNat (ch : Int) : ((channelByte ch).toNat : Int) = (ch * 255).tdiv 32768 % 256 := by
  rw [← scaleLinear_channel_eq_tdiv]
  exact trunc8_toNat _

/-- Settles O36: the channel byte is `trunc8` of the scaling; the values of the rules are computed. -/
theorem channelScaledAndCut : Obligations.ChannelScaledAndCut :=
  ⟨fun ch => ⟨scaleLinear_channel_eq_tdiv ch, channelByte_toNat ch⟩, trunc8_toNat, by decide, by decide⟩

end Sys2Proof.Machine
end

section
/-!
The chroma, the triangular distance and the second component (R121 to R124). Chroma and second component are both products
of `fxmul`, so their signs and bounds are laws of `fxmul` with a factor from 0 to 1.0.
-/
namespace Sys2Proof.Machine

theorem fxmul_comm (a b : Int) : fxmul a b = fxmul b a := by
  rw [fxmul, fxmul, Int.mul_comm]

@[simp] theorem zero_fxmul (b : Int) : fxmul 0 b = 0 := by
  rw [fxmul_comm, fxmul_zero]

/-- The floor keeps a negative product negative, however small. -/
theorem fxmul_neg_iff (a b : Int) : fxmul a b < 0 ↔ a * b < 0 := by
  rw [fxmul_eq_ediv]
  omega

/-- A factor above 0 and up to 1.0 takes a negative number to a negative one no further from 0. -/
theorem fxmul_mem_of_neg {a b : Int} (ha : a < 0) (hb : 0 < b) (hb' : b ≤ 32768) :
    a ≤ fxmul a b ∧ fxmul a b < 0 := by
  have hlo : a * 32768 ≤ a * b := mul_le_mul_of_nonpos_left hb' ha.le
  refine ⟨?_, (fxmul_neg_iff a b).mpr (mul_neg_of_neg_of_pos ha hb)⟩
  rw [fxmul_eq_ediv]
  omega

theorem chroma_mem {sat val : Int} (hs : 0 ≤ sat) (hs' : sat ≤ 32768) (hv : 0 ≤ val) (hv' : val ≤ 32768) :
    0 ≤ chroma sat val ∧ chroma sat val ≤ val ∧ chroma sat val ≤ sat := by
  obtain ⟨hpos, hval⟩ := fxmul_mem_of_factor_le_one hv hs hs'
  obtain ⟨-, hsat⟩ := fxmul_mem_of_factor_le_one hs hv hv'
  exact ⟨hpos, hval, (fxmul_comm val sat).trans_le hsat⟩

theorem chroma_neg_iff (sat val : Int) : chroma sat val < 0 ↔ (sat < 0 ∧ 0 < val) ∨ (0 < sat ∧ val < 0) := by
  rw [chroma, fxmul_neg_iff, mul_neg_iff]
  tauto

@[simp] theorem chroma_zero_sat (val : Int) : chroma 0 val = 0 :=
  fxmul_zero val

theorem hueMod_mem (hp : Int) : 0 ≤ hueMod hp ∧ hueMod hp ≤ 65535 := by
  rw [hueMod_eq]
  omega

/-- The distance rises over the first of the two sectors and falls over the second. -/
theorem hueDist_eq_ite (hp : Int) :
    hueDist hp = if hueMod hp ≤ 32768 then hueMod hp else 65536 - hueMod hp := by
  rw [hueDist_eq, ← hueMod_eq, abs_eq_max_neg]
  omega

theorem secondComponent_of_hueDist_zero {hp : Int} (h : hueDist hp = 0) (sat val : Int) :
    secondComponent hp sat val = 0 := by
  rw [secondComponent, h, fxmul_zero]

theorem secondComponent_of_hueDist_one {hp : Int} (h : hueDist hp = 32768) (sat val : Int) :
    secondComponent hp sat val = chroma sat val := by
  rw [secondComponent, h, fxmul_one]

theorem secondComponent_mem_of_chroma_neg {hp sat val : Int} (hchr : chroma sat val < 0) (hdist : 0 < hueDist hp) :
    chroma sat val ≤ secondComponent hp sat val ∧ secondComponent hp sat val ≤ -1 := by
  obtain ⟨hle, hneg⟩ := fxmul_mem_of_neg hchr hdist (hueDist_mem hp).2
  exact ⟨hle, Int.le_sub_one_of_lt hneg⟩

@[simp] theorem secondComponent_zero_sat (hp val : Int) : secondComponent hp 0 val = 0 := by
  rw [secondComponent, chroma_zero_sat, zero_fxmul]

/-- Settles O39: the values are the steps of R121, R123 and R124, and the bounds are those of `fxmul` with the saturation, the
value or the distance as its factor up to 1.0. -/
theorem convertComponentBounds : Obligations.ConvertComponentBounds := by
  refine ⟨fun sat val => ⟨chroma_eq_fdiv sat val, chroma_mem, chroma_neg_iff sat val⟩, fun hp => ?_,
    fun hp sat val => ?_, by decide⟩
  · obtain ⟨lo, hi⟩ := hueDist_mem hp
    obtain ⟨modLo, modHi⟩ := hueMod_mem hp
    exact ⟨hueDist_eq hp, lo, hi, modLo, modHi, hueDist_eq_ite hp⟩
  · obtain ⟨lo, hi⟩ := hueDist_mem hp
    exact ⟨secondComponent_eq_fdiv hp sat val, fun hchr => fxmul_mem_of_factor_le_one hchr lo hi,
      secondComponent_mem_of_chroma_neg, fun h => secondComponent_of_hueDist_zero h sat val,
      fun h => secondComponent_of_hueDist_one h sat val⟩

end Sys2Proof.Machine
end

section
/-!
The sector table (R125 to R127). The first test that holds decides, so a sector is chosen on its range without the bottom;
at the bottom the sector below it is chosen, and gives the same colour because there the second component is 0 or the chroma.
-/
namespace Sys2Proof.Machine

/-- The hue-prime at which a sector's range begins; the hues out of range begin, upward, where the sixth range ends. -/
def Sector.bottom : Sector → Int
  | .one => 0
  | .two => 32768
  | .three => 65536
  | .four => 98304
  | .five => 131072
  | .six => 163840
  | .outOfRange => 196608

theorem sectorOf_of_bottom_lt {k : Sector} {hp : Int} (hk : k ≠ .outOfRange) (lo : k.bottom < hp)
    (hi : hp ≤ k.bottom + 32768) : sectorOf hp = k := by
  refine (apply_sectorOf id hp).trans ?_
  cases k with
  | outOfRange => exact absurd rfl hk
  | _ => simp only [Sector.bottom, id] at lo hi ⊢; grind

theorem sectorOf_of_not_mem {hp : Int} (h : hp < 0 ∨ 196608 < hp) : sectorOf hp = .outOfRange := by
  refine (apply_sectorOf id hp).trans ?_
  simp only [id]
  grind

/-- At the bottom of a range the sector that is chosen, its own or the one below it, gives its colour. -/
theorem sectorColor_sectorOf_bottom {k : Sector} (hk : k ≠ .outOfRange) (sat val : Int) :
    sectorColor (sectorOf k.bottom) (chroma sat val) (secondComponent k.bottom sat val) =
      sectorColor k (chroma sat val) (secondComponent k.bottom sat val) := by
  cases k with
  | one => rfl
  | two | four | six => rw [secondComponent_of_hueDist_one (by decide)]; rfl
  | three | five => rw [secondComponent_of_hueDist_zero (by decide)]; rfl
  | outOfRange => exact absurd rfl hk

/-- The colour of a sector is given on its whole closed range. -/
theorem sectorColor_sectorOf_of_mem {k : Sector} (hk : k ≠ .outOfRange) {hp : Int} (sat val : Int)
    (lo : k.bottom ≤ hp) (hi : hp ≤ k.bottom + 32768) :
    sectorColor (sectorOf hp) (chroma sat val) (secondComponent hp sat val) =
      sectorColor k (chroma sat val) (secondComponent hp sat val) := by
  obtain rfl | lt := lo.eq_or_lt
  · exact sectorColor_sectorOf_bottom hk sat val
  · rw [sectorOf_of_bottom_lt hk lt hi]

@[simp] theorem sectorColor_outOfRange (chr x : Int) : sectorColor .outOfRange chr x = (0, 0, 0) := rfl

@[simp] theorem sectorColor_zero (k : Sector) : sectorColor k 0 0 = (0, 0, 0) := by
  cases k <;> rfl

/-- Settles O29: one row of the table for each sector, on its closed range. -/
theorem sectorTableClosedRanges : Obligations.SectorTableClosedRanges := by
  rintro hp sat val _ _ rfl rfl
  have row {k : Sector} (hk : k ≠ .outOfRange) := sectorColor_sectorOf_of_mem hk (hp := hp) sat val
  refine ⟨row (k := .one) (by decide), row (k := .two) (by decide), row (k := .three) (by decide),
    row (k := .four) (by decide), row (k := .five) (by decide), row (k := .six) (by decide), fun hout => ?_⟩
  rw [sectorOf_of_not_mem hout, sectorColor_outOfRange]

end Sys2Proof.Machine
end

section
/-!
CONVERT (R120, R126, R127, R132, R135, R139, R141): the function `convert` as the packing of its channels, the greys that it
gives where the sector's colour is 0, and the operation as an unconditional return of it.
-/
namespace Sys2Proof.Machine

theorem convertChannels_of_sectorColor {hp sat val r g b : Int}
    (h : sectorColor (sectorOf hp) (chroma sat val) (secondComponent hp sat val) = (r, g, b)) :
    convertChannels hp sat val = (r + colorOffset sat val, g + colorOffset sat val, b + colorOffset sat val) := by
  rw [convertChannels, h]

theorem convert_of_channels {hp sat val r g b : Int} (h : convertChannels hp sat val = (r, g, b)) :
    convert hp sat val = packRgba (channelByte r) (channelByte g) (channelByte b) 255#8 := by
  rw [convert, h]
  rfl

theorem convert_toNat_of_channels {hp sat val r g b : Int} (h : convertChannels hp sat val = (r, g, b)) :
    ((convert hp sat val).toNat : Int) =
      (r * 255).tdiv 32768 % 256 * 2 ^ 24 + (g * 255).tdiv 32768 % 256 * 2 ^ 16 +
        (b * 255).tdiv 32768 % 256 * 2 ^ 8 + 255 := by
  rw [convert_of_channels h, packRgba_toNat]
  push_cast
  simp only [channelByte_toNat]

/-- Where the sector gives no colour all channels are the offset alone. -/
theorem convert_of_sectorColor_zero {hp sat val : Int}
    (h : sectorColor (sectorOf hp) (chroma sat val) (secondComponent hp sat val) = (0, 0, 0)) :
    convert hp sat val = channelByte (colorOffset sat val) ++ channelByte (colorOffset sat val) ++
      channelByte (colorOffset sat val) ++ 255#8 := by
  rw [convert_of_channels (convertChannels_of_sectorColor h), packRgba_eq_append, zero_add]

theorem convert_of_hue_not_mem {hp : Int} (h : hp < 0 ∨ 196608 < hp) (sat val : Int) :
    convert hp sat val = channelByte (colorOffset sat val) ++ channelByte (colorOffset sat val) ++
      channelByte (colorOffset sat val) ++ 255#8 :=
  convert_of_sectorColor_zero (by rw [sectorOf_of_not_mem h, sectorColor_outOfRange])

theorem convert_zero_sat (hp val : Int) :
    convert hp 0 val = channelByte val ++ channelByte val ++ channelByte val ++ 255#8 := by
  have hoff : colorOffset 0 val = val := by rw [colorOffset, chroma_zero_sat, sub_zero]
  rw [convert_of_sectorColor_zero (by rw [chroma_zero_sat, secondComponent_zero_sat, sectorColor_zero]), hoff]

/-- The hues run in a circle: at both ends of the range the colour is the chroma in red. -/
theorem convert_196608 (sat val : Int) : convert 196608 sat val = convert 0 sat val := by
  have top : sectorColor (sectorOf 196608) (chroma sat val) (secondComponent 196608 sat val) =
      (chroma sat val, 0, 0) := by
    rw [secondComponent_of_hueDist_zero (by decide)]; rfl
  have bottom : sectorColor (sectorOf 0) (chroma sat val) (secondComponent 0 sat val) = (chroma sat val, 0, 0) := by
    rw [secondComponent_of_hueDist_zero (by decide)]; rfl
  rw [convert_of_channels (convertChannels_of_sectorColor top),
    convert_of_channels (convertChannels_of_sectorColor bottom)]

theorem exec_convert (huePrime sat val : PortWord) (s : State) : exec (.convert huePrime sat val) s =
    .next (s.withResult (.q (convert huePrime.toInt sat.toInt val.toInt))) := rfl

theorem exec_convert_of_eq {huePrime sat val : PortWord} {q : Rgba}
    (h : convert huePrime.toInt sat.toInt val.toInt = q) (s : State) :
    exec (.convert huePrime sat val) s = .next (s.withResult (.q q)) := by
  rw [exec_convert, h]

/-- Settles O28: the steps are the model's own in the library's terms, and the packed colour is the sum of its bytes. -/
theorem convertFollowsSevenSteps : Obligations.ConvertFollowsSevenSteps := by
  refine ⟨fun c hop => (decode_ok_iff _ _).mpr ⟨.convert, hop, rfl⟩, fun huePrime sat val s => ?_,
    exec_convert_of_eq (by decide)⟩
  obtain ⟨r, g, b, hcol⟩ : ∃ r g b, sectorColor (sectorOf huePrime.toInt) (chroma sat.toInt val.toInt)
      (secondComponent huePrime.toInt sat.toInt val.toInt) = (r, g, b) := ⟨_, _, _, rfl⟩
  refine ⟨_, _, _, _, _, _, r, g, b, exec_convert huePrime sat val s, chroma_eq_fdiv _ _, hueMod_eq _, hueDist_eq _,
    secondComponent_eq_fdiv _ _ _, ?_, rfl, convert_toNat_of_channels (convertChannels_of_sectorColor hcol)⟩
  rw [← hcol]
  exact apply_sectorOf (sectorColor · _ _) _

/-- Settles O30: out of range the sector gives no colour, so every channel is `V - C`; the values of the rule are computed. -/
theorem outOfRangeHueIsGrey : Obligations.OutOfRangeHueIsGrey := by
  refine ⟨fun huePrime sat val s hout => ?_, by decide⟩
  refine ⟨_, ?_, exec_convert_of_eq (convert_of_hue_not_mem hout _ _) s⟩
  rw [channelByte_eq, colorOffset, chroma_eq_fdiv]

/-- Settles O31: at every multiple of 32768 the distance is 0 or 1.0, so the second component is 0 or the chroma and both
adjoining rows of the table are the same; the colours at full saturation and value are computed. -/
theorem boundaryColoursAgree : Obligations.BoundaryColoursAgree := by
  have hdist : hueDist 0 = 0 ∧ hueDist 32768 = 32768 ∧ hueDist 65536 = 0 ∧ hueDist 98304 = 32768 ∧
      hueDist 131072 = 0 ∧ hueDist 163840 = 32768 ∧ hueDist 196608 = 0 := by decide
  refine ⟨?_, hdist, by decide, fun sat val => exec_convert_of_eq (convert_196608 _ _)⟩
  rintro sat val _ rfl
  obtain ⟨d0, d1, d2, d3, d4, d5, d6⟩ := hdist
  simp only [secondComponent_of_hueDist_zero d0, secondComponent_of_hueDist_one d1, secondComponent_of_hueDist_zero d2,
    secondComponent_of_hueDist_one d3, secondComponent_of_hueDist_zero d4, secondComponent_of_hueDist_one d5,
    secondComponent_of_hueDist_zero d6, sectorColor, and_self]

/-- Settles O32: without saturation chroma and second component are 0, so every sector gives no colour and the offset is `V`. -/
theorem zeroSaturationIsGrey : Obligations.ZeroSaturationIsGrey := by
  refine ⟨fun huePrime val s => ?_, by decide⟩
  have hq := exec_convert_of_eq (huePrime := huePrime) (sat := 0) (convert_zero_sat huePrime.toInt val.toInt) s
  exact ⟨_, channelByte_eq _, chroma_zero_sat _, secondComponent_zero_sat _ _, hq⟩

/-- Settles O34: the intermediates and the colour are computed. -/
theorem pureRed : Obligations.PureRed :=
  ⟨by decide, by decide, by decide, by decide, by decide, by decide, exec_convert_of_eq (by decide)⟩

/-- Settles O35: the colour is the packing of the three channel bytes with alpha 255, whose fields are read back by O37's
lemmas. -/
theorem convertAlphaFixed : Obligations.ConvertAlphaFixed := by
  intro huePrime sat val s
  have hq := convert_of_channels (hp := huePrime.toInt) (sat := sat.toInt) (val := val.toInt) rfl
  refine ⟨_, _, _, _, exec_convert_of_eq hq s, rfl, packRgba_toNat _ _ _ _, ?_⟩
  exact ⟨redByte_packRgba _ _ _ _, greenByte_packRgba _ _ _ _, blueByte_packRgba _ _ _ _, alphaByte_packRgba _ _ _ _⟩

/-- Settles O38: the colour returned is `convert` of the operands. -/
theorem convertIsPure : Obligations.ConvertIsPure :=
  fun huePrime sat val => ⟨_, exec_convert huePrime sat val⟩

end Sys2Proof.Machine
end

section
/-!
One DEBOUNCE (R150 to R152). The new history is the old one with the sample appended below it, cut to the width; `enabled`
of it is the answer.
-/
namespace Sys2Proof.Machine

/-- A sample seen as a history bit (R61). -/
theorem pin_getLsbD_zero (sw : Pin) : sw.getLsbD 0 = (sw == 1#1) := by
  revert sw
  decide

/-- The sample is appended below the history and the top bit is cut off (R151). -/
theorem histShift_eq_setWidth_append {w : Nat} (h : BitVec w) (sw : Pin) :
    histShift h sw = (h ++ sw).setWidth w := by
  refine BitVec.eq_of_getLsbD_eq fun k hk => ?_
  rw [BitVec.getLsbD_setWidth, BitVec.getLsbD_append]
  cases k with
  | zero => simp [histShift_zero hk, hk, -BitVec.getLsbD_eq_getElem]
  | succ k => simp [histShift_succ h sw hk, hk, -BitVec.getLsbD_eq_getElem]

theorem histShift_toNat {w : Nat} (h : BitVec w) (sw : Pin) :
    (histShift h sw).toNat = (h.toNat * 2 + sw.toNat) % 2 ^ w := by
  rw [histShift_eq_setWidth_append, BitVec.toNat_setWidth, toNat_append_eq_add, pow_one]

/-- The mask covers the whole of the block's history. -/
theorem histEnabled_iff_toNat (h : Hist) : histEnabled h = true ↔ h.toNat = 0xFFF := by
  have mask : BitVec.ofNat 12 Config.debMask = BitVec.allOnes 12 := by decide
  rw [histEnabled, mask, BitVec.and_allOnes, beq_iff_eq, ← BitVec.toNat_inj]
  rfl

/-- Settles O43: the answer is written out by `exec_debounce`; the rest are the laws of the shift and of `enabled`. -/
theorem debounceShiftsHistory : Obligations.DebounceShiftsHistory := by
  refine ⟨fun c hop => (decode_ok_iff _ _).mpr ⟨.debounce, hop, rfl⟩, fun sw s => ?_⟩
  refine ⟨_, _, exec_debounce sw s, histShift_toNat s.hist sw, ?_, fun k hk => histShift_succ s.hist sw (by omega),
    histEnabled_iff le_rfl _, histEnabled_iff_toNat _⟩
  rw [histShift_zero (by decide), pin_getLsbD_zero]

end Sys2Proof.Machine
end

section
/-!
A run of DEBOUNCE operations (R24, R153). It leaves the history `samples.foldl histShift` of the one it began with, whose
bits are the samples, latest first, then the older history. A low one among the latest twelve samples keeps `enabled` low, and
once there are twelve nothing else does.
-/
namespace Sys2Proof.Machine

/-- A run completes in a state that holds the shifted history; the latest of its results is that state's `enabled`. -/
theorem debounceAll_completes (samples : List Pin) (s : State) : ∃ t, debounceAll samples s = .next t ∧
    t.hist = samples.foldl histShift s.hist ∧
    (samples ≠ [] → t.results.head? = some (.enabled t.enabled)) := by
  induction samples generalizing s with
  | nil => exact ⟨s, rfl, rfl, fun hne => absurd rfl hne⟩
  | cons sw rest ih =>
    obtain ⟨t, hrun, hhist, hlast⟩ := ih { s with
      hist := histShift s.hist sw
      results := .enabled (histEnabled (histShift s.hist sw)) :: s.results }
    refine ⟨t, (debounceAll_cons sw rest s).trans hrun, hhist, fun _ => ?_⟩
    cases rest with
    | nil => cases hrun; rfl
    | cons sw' rest' => exact hlast (List.cons_ne_nil _ _)

/-- Bit `k` is the sample `k` operations before the latest, or what the history held before them (R24). -/
theorem getLsbD_foldl_histShift {w : Nat} (h : BitVec w) (samples : List Pin) {k : Nat} (hk : k < w) :
    (samples.foldl histShift h).getLsbD k =
      if k < samples.length then samples.reverse[k]? == some 1#1 else h.getLsbD (k - samples.length) := by
  induction samples using List.reverseRecOn generalizing k with
  | nil => rfl
  | append_singleton xs x ih =>
    rw [List.foldl_concat, List.reverse_concat, List.length_append, List.length_singleton]
    cases k with
    | zero => rw [histShift_zero hk, pin_getLsbD_zero]; simp
    | succ k => simp [histShift_succ _ x hk, ih (Nat.lt_of_succ_lt hk)]

/-- A low sample is seen for twelve operations, its own and the next eleven (R154). -/
theorem histEnabled_foldl_of_low {w : Nat} (hw : 12 ≤ w) (h : BitVec w) {samples : List Pin}
    (hlen : samples.length ≤ 11) : histEnabled ((0#1 :: samples).foldl histShift h) = false := by
  refine Bool.eq_false_iff.mpr fun high => ?_
  have bit := (histEnabled_iff hw _).mp high samples.length (by omega)
  rw [getLsbD_foldl_histShift _ _ (by omega)] at bit
  simp at bit

/-- After twelve samples or more, `enabled` says whether the latest twelve were high, whatever the history was (R153). -/
theorem histEnabled_foldl_iff {w : Nat} (hw : 12 ≤ w) (h : BitVec w) {samples : List Pin} (hlen : 12 ≤ samples.length) :
    histEnabled (samples.foldl histShift h) = true ↔ ∀ x ∈ samples.drop (samples.length - 12), x = 1#1 := by
  have latest : ∀ k < 12, ((samples.foldl histShift h).getLsbD k = true ↔ samples.reverse[k]? = some 1#1) := by
    intro k hk
    rw [getLsbD_foldl_histShift h samples (by omega), if_pos (by omega), beq_iff_eq]
  calc histEnabled (samples.foldl histShift h) = true
    _ ↔ ∀ k < 12, samples.reverse[k]? = some 1#1 := (histEnabled_iff hw _).trans (forall₂_congr latest)
    _ ↔ ∀ x ∈ samples.reverse.take 12, x = 1#1 := by
      simp [List.forall_mem_iff_forall_getElem, List.getElem_eq_iff, hlen, -List.getElem_reverse]
    _ ↔ ∀ x ∈ samples.drop (samples.length - 12), x = 1#1 := by simp only [List.take_reverse, List.mem_reverse]

/-- Settles O44: the low sample stands among the latest twelve for eleven more, and then leaves them. -/
theorem lowSampleClearsForTwelve : Obligations.LowSampleClearsForTwelve := by
  intro s samples
  obtain ⟨t, hrun, hhist, hlast⟩ := debounceAll_completes (0#1 :: samples) s
  have hlast := hlast (List.cons_ne_nil _ _)
  refine ⟨fun hlen => ⟨t, hrun, ?_⟩, fun hlen => ⟨t, t.enabled, hrun, hlast, rfl, ?_⟩⟩
  · have low : t.enabled = false := by
      rw [State.enabled, hhist, histEnabled_foldl_of_low le_rfl s.hist hlen]
    exact ⟨low ▸ hlast, low⟩
  · have latest := histEnabled_foldl_iff le_rfl s.hist (samples := 0#1 :: samples) (by simp [hlen])
    rw [State.enabled, hhist, latest]
    simp [hlen]

/-- Settles O45: the latest twelve samples are high, and then a low one enters at bit 0. -/
theorem twelveHighThenLow : Obligations.TwelveHighThenLow := by
  intro s more
  obtain ⟨t, hrun, hhist, hlast⟩ := debounceAll_completes (List.replicate (12 + more) 1#1) s
  have high : t.enabled = true := by
    rw [State.enabled, hhist, histEnabled_foldl_iff le_rfl s.hist (by simp)]
    exact fun x hx => List.eq_of_mem_replicate (List.mem_of_mem_drop hx)
  have low : histEnabled (histShift t.hist 0#1) = false :=
    histEnabled_foldl_of_low le_rfl t.hist (samples := []) (by decide)
  refine ⟨t, _, hrun, ?_, high, exec_debounce 0 t, low, ?_⟩
  · exact high ▸ hlast (by simp)
  · exact congrArg (fun e => Result.enabled e :: t.results) low

end Sys2Proof.Machine
end

section
/-!
The two paths apart (R159). An operation other than DEBOUNCE is refused in every state or returns one result in every state;
either way it does not look at the state, and adding a result leaves `HIST` alone.
-/
namespace Sys2Proof.Machine

/-- An operation other than DEBOUNCE answers from its operands alone (R99, R106, R112, R135). -/
theorem exec_pure_of_not_debounce {i : Instr} (hi : ∀ sw, i ≠ .debounce sw) :
    (∃ r, ∀ s, exec i s = .refused r) ∨ ∃ r, ∀ s, exec i s = .next (s.withResult r) := by
  obtain ⟨hfxmul, hscale⟩ := fixedPointPrimitivesArePure
  cases i with
  | fxmul a b => exact (hfxmul a b).imp_right fun ⟨y, hy⟩ => ⟨.y y, hy⟩
  | scale x inMin inMax outMin outMax => exact (hscale x inMin inMax outMin outMax).imp_right fun ⟨y, hy⟩ => ⟨.y y, hy⟩
  | raw2hue raw => exact .inr ⟨_, exec_raw2hue raw⟩
  | raw2unit raw => exact .inr ⟨_, exec_raw2unit raw⟩
  | convert huePrime sat val => exact .inr ⟨_, exec_convert huePrime sat val⟩
  | debounce sw => exact absurd rfl (hi sw)

/-- Settles O50: a refusal and a result of the other operations are the same in every state, so also with another `HIST`;
DEBOUNCE's new history and flag are made of the history alone. -/
theorem colourAndEnablePathsApart : Obligations.ColourAndEnablePathsApart := by
  refine ⟨fun i s h hi => ?_, fun sw s s' hhist => ?_⟩
  · obtain ⟨r, hr⟩ | ⟨r, hr⟩ := exec_pure_of_not_debounce hi <;> simp only [hr]
    · exact ⟨fun t ht => (by cases ht), fun r' hr' => by cases hr'; rfl⟩
    · exact ⟨fun t ht => (by cases ht; exact ⟨rfl, rfl⟩), fun r' hr' => by cases hr'⟩
  · refine ⟨_, _, histEnabled (histShift s.hist sw), exec_debounce sw s, exec_debounce sw s', ?_⟩
    simp [State.enabled, hhist]

end Sys2Proof.Machine
end

section
/-!
The refusals and the exceptions (R185, R187). A refusal comes from decode, from the span test of SCALE or from a checked
return on `Y`; the first lemmas say, for each, which reasons it can give and when.
-/
namespace Sys2Proof.Machine

theorem decodeAtIssue_error_iff (c : Command) (r : Refusal) :
    decodeAtIssue c = .error r ↔ (c.op = 6#3 ∨ c.op = 7#3) ∧ r = .reservedOp := by
  cases hdec : decode c with
  | ok i =>
    have hop := mt (decode_error_iff c .reservedOp).mpr (by simp [hdec])
    simp [(decodeAtIssue_ok_iff c i).mpr hdec, hop]
  | error e =>
    simp [decodeAtIssue_of_decode_error hdec, (decode_error_iff c e).mp hdec, eq_comm]

/-- A checked return has one reason to refuse: a value that does not fit the port. -/
theorem returnYChecked_eq_refused_iff (v : Int) (s : State) (r : Refusal) :
    returnYChecked v s = .refused r ↔ r = .resultOverflow ∧ ¬ (-2 ^ 31 ≤ v ∧ v < 2 ^ 31) := by
  rw [← fitsY_iff, returnYChecked_eq]
  split <;> simp [*, eq_comm]

theorem exec_fxmul_eq_refused_iff (a b : PortWord) (s : State) (r : Refusal) :
    exec (.fxmul a b) s = .refused r ↔ r = .resultOverflow ∧
      ¬ (-2 ^ 31 ≤ (a.toInt * b.toInt).fdiv 32768 ∧ (a.toInt * b.toInt).fdiv 32768 < 2 ^ 31) := by
  rw [exec_fxmul, returnYChecked_eq_refused_iff, fxmul_eq_fdiv]

/-- The span is tested first, so the two reasons of SCALE exclude each other (R189). -/
theorem exec_scale_eq_refused_iff (x inMin inMax outMin outMax : PortWord) (s : State) (r : Refusal) :
    exec (.scale x inMin inMax outMin outMax) s = .refused r ↔
      (inMax = inMin ∧ r = .zeroSpan) ∨ (inMax ≠ inMin ∧ r = .resultOverflow ∧
        ¬ (-2 ^ 31 ≤ scaleLinear x.toInt inMin.toInt inMax.toInt outMin.toInt outMax.toInt ∧
          scaleLinear x.toInt inMin.toInt inMax.toInt outMin.toInt outMax.toInt < 2 ^ 31)) := by
  by_cases hspan : inMax = inMin
  · rw [exec_scale_of_span_zero (congrArg BitVec.toInt hspan)]
    simp [hspan, eq_comm]
  · rw [exec_scale_of_span_ne_zero (BitVec.toInt_ne.mpr hspan), returnYChecked_eq_refused_iff]
    simp only [hspan, ne_eq, not_false_eq_true, false_and, true_and, false_or]

/-- Settles O58: decode and the two fixed-point primitives refuse for the listed reasons; each of the other four operations
always returns a result. -/
theorem refusalsClosedList : Obligations.RefusalsClosedList := by
  refine ⟨decodeAtIssue_error_iff, fun i s r => ?_⟩
  cases i with
  | fxmul a b => simp [exec_fxmul_eq_refused_iff]
  | scale x inMin inMax outMin outMax => simp [exec_scale_eq_refused_iff, scaleLinear_eq_tdiv]
  | raw2hue raw => simp [exec_raw2hue, returnY]
  | raw2unit raw => simp [exec_raw2unit, returnY]
  | convert huePrime sat val => simp [exec_convert]
  | debounce sw => simp [exec_debounce]

/-- Settles O57: the type of causes has no constructor, so there is no case to answer. -/
theorem blockRaisesNoException : Obligations.BlockRaisesNoException :=
  fun f => nomatch f

end Sys2Proof.Machine
end

section
/-!
Encoding (R63, R67) and the row of bits of a command (log entry 5). The row is a number in mixed radix, its lowest field first:
a shift by the field's place drops the fields below it, and the cut to the port's width drops those above it.
-/
namespace Sys2Proof

/-- A command is read back from its own row of bits: each field is a linear fact about the quotients of the row. -/
@[simp] theorem Command.ofWord_toWord (c : Command) : Command.ofWord c.toWord = c := by
  obtain ⟨op, a, b, c, d, e, raw, sw⟩ := c
  simp only [Command.ofWord, Command.toWord, Command.mk.injEq, ← BitVec.toNat_inj, BitVec.toNat_ofNat,
    Nat.shiftRight_eq_div_pow]
  omega

@[simp] theorem decode_encode (i : Instr) : decode (encode i) = .ok i :=
  (Machine.decodeAtIssue_ok_iff _ _).mp (Machine.decodeAtIssue_encode i)

@[simp] theorem encode_op (i : Instr) : (encode i).op = (opCodeOf i).bits :=
  op_eq_of_decode_ok (decode_encode i)

/-- Encoding what was read puts the same patterns back on the ports it was read from. -/
theorem pattern_encode_read (k : OpCode) (c : Command) : ∀ p ∈ k.ports, (encode (k.read c)).pattern p = c.pattern p := by
  cases k <;> simp [OpCode.ports, OpCode.read, encode, Command.pattern]

/-- Settles O8: the row gives the command back, and the command its operation; a command that decodes differs from the
encoding of its operation only on ports the operation does not use. -/
theorem decodeEncodeAgree : Obligations.DecodeEncodeAgree := by
  refine ⟨fun i => by rw [Command.ofWord_toWord, decode_encode], fun c i hdec => ?_⟩
  obtain ⟨k, hop, rfl⟩ := (decode_ok_iff c i).mp hdec
  rw [encode_op, opCodeOf_read]
  exact ⟨hop.symm, pattern_encode_read k c⟩

end Sys2Proof
end

section
/-!
The invariant (R24, R26, R132). A result that is no flag leaves the flags, `HIST` and `enabled` as they were; a DEBOUNCE adds the
flag of the history it writes, and at most doubles the history.
-/
namespace Sys2Proof.Machine

/-- The invariant does not look at the program. -/
theorem State.Inv.withProgram {s : State} (h : s.Inv) (p : List Line) : (s.withProgram p).Inv := h

theorem State.Inv.withResult_y {s : State} (h : s.Inv) (v : PortWord) : (s.withResult (.y v)).Inv := by
  obtain ⟨halpha, hflag, hhist⟩ := h
  exact ⟨fun q hq => halpha q (by simpa using hq), hflag, hhist⟩

theorem State.Inv.withResult_q {s : State} (h : s.Inv) {v : Rgba} (hv : alphaByte v = 255#8) :
    (s.withResult (.q v)).Inv := by
  obtain ⟨halpha, hflag, hhist⟩ := h
  refine ⟨fun q hq => ?_, hflag, hhist⟩
  obtain heq | hq := List.mem_cons.mp hq
  · cases heq
    exact hv
  · exact halpha q hq

/-- The sample doubles the room that the history needs, and the flag returned makes that room. -/
theorem State.Inv.debounce {s : State} (h : s.Inv) (sw : Pin) :
    ((s.withHist (histShift s.hist sw)).withResult (.enabled (histEnabled (histShift s.hist sw)))).Inv := by
  obtain ⟨halpha, -, hhist⟩ := h
  refine ⟨fun q hq => halpha q (by simpa using hq), fun e older he => (List.cons.inj he).1, ?_⟩
  calc (histShift s.hist sw).toNat
    _ ≤ s.hist.toNat * 2 + sw.toNat := (histShift_toNat s.hist sw).trans_le (Nat.mod_le _ _)
    _ < 2 ^ s.flags.length * 2 := by omega
    _ = 2 ^ (s.flags.length + 1) := (Nat.pow_succ ..).symm

theorem alphaByte_convert (hp sat val : Int) : alphaByte (convert hp sat val) = 255#8 := by
  rw [convert_of_channels rfl, alphaByte_packRgba]

theorem exec_keeps_inv {i : Instr} {s t : State} (hs : s.Inv) (h : exec i s = .next t) : t.Inv := by
  obtain ⟨v, rfl⟩ | ⟨hp, sat, val, rfl⟩ | ⟨sw, -, rfl⟩ := exec_next_cases h
  · exact hs.withResult_y v
  · exact hs.withResult_q (alphaByte_convert _ _ _)
  · exact hs.debounce sw

/-- Settles O55: an idle step changes nothing, and every operation keeps the invariant. -/
theorem stepKeepsInvariant : Obligations.StepKeepsInvariant := by
  intro s t hs h
  obtain ⟨-, rfl⟩ | ⟨l, rest, i, -, -, hexec⟩ := step_next_cases h
  · exact hs
  · exact exec_keeps_inv (hs.withProgram rest) hexec

/-- Settles O54: nothing has been returned, and `HIST` is 0. -/
theorem resetMeetsInvariant : Obligations.ResetMeetsInvariant :=
  show State.reset.Inv from ⟨fun _ hq => (by cases hq), fun _ _ he => (by cases he), by decide⟩

end Sys2Proof.Machine
end

section
/-!
Issue (R63, R65, R71). A line resolves its operands one after another and issues the operation made of them, so it is issued
exactly if each operand has a value that is the value of a pattern on its port.
-/
namespace Sys2Proof.Machine

theorem issue_eq_bind (rs : List Result) (l : Line) : issue rs l = present rs l >>= decodeAtIssue := rfl

/-- A chain of checks succeeds exactly if each of them does. -/
theorem bind_eq_ok_iff {α β : Type} {x : Except Refusal α} {f : α → Except Refusal β} {y : β} :
    x >>= f = .ok y ↔ ∃ a, x = .ok a ∧ f a = .ok y := by
  cases x <;> simp [bind, Except.bind]

/-- A chain of checks fails with the reason of the first that does. -/
theorem bind_eq_error_iff {α β : Type} {x : Except Refusal α} {f : α → Except Refusal β} {why : Refusal} :
    x >>= f = .error why ↔ x = .error why ∨ ∃ a, x = .ok a ∧ f a = .error why := by
  cases x <;> simp [bind, Except.bind]

theorem operandValue_name_length (newer older : List Result) (r : Result) :
    operandValue (newer ++ r :: older) (.name newer.length) = .ok r.value := by
  simp [operandValue]

theorem operandValue_name_of_length_le {rs : List Result} {back : Nat} (h : rs.length ≤ back) :
    operandValue rs (.name back) = .error .unboundName :=
  (operandValue_error_iff rs _ _).mpr ⟨rfl, back, rfl, h⟩

/-- Settles O4: each check in a line's chain succeeds exactly on the value of a pattern, and the chain issues the operation
made of the patterns. -/
theorem textualLineDrivesItsPorts : Obligations.TextualLineDrivesItsPorts := by
  refine ⟨?fxmul, ?scale, ?raw2hue, ?raw2unit, ?convert, ?debounce, fun rs v => rfl, operandValue_name_length,
    fun rs back => operandValue_name_of_length_le, fun v => rfl, fun v => rfl, rfl, rfl⟩
  all_goals
    intros
    simp [issue_eq_bind, present, bind_eq_ok_iff, signedOperand_32_ok_iff, signedOperand_16_ok_iff, bitOperand_ok_iff,
      decodeAtIssue_encode, ← exists_and_left, @eq_comm Instr _ (_ : Instr)]

end Sys2Proof.Machine
end

section
/-!
The lines that are refused at issue (R65, R71; log entries 4 and 8). Each operand either has a value that its port can carry or
is bad for one reason; a line's chain of checks ends at the first bad one of its operands.
-/
namespace Sys2Proof.Machine

/-- The operand has a value, and its port can carry it. -/
def PortOperand.Fits (rs : List Result) (p : PortOperand) : Prop :=
  ∃ v : Int, operandValue rs p.operand = .ok v ∧ p.least ≤ v ∧ v ≤ p.greatest

/-- The operand cannot stand on its port, for this reason. -/
def PortOperand.BadFor (rs : List Result) (why : Refusal) (p : PortOperand) : Prop :=
  (why = .unboundName ∧ ∃ back : Nat, p.operand = .name back ∧ rs.length ≤ back) ∨
  (why = .operandRange ∧ ∃ v : Int, operandValue rs p.operand = .ok v ∧ (v < p.least ∨ p.greatest < v))

/-- The first bad operand of a list is bad for this reason. -/
def FirstBad (rs : List Result) (why : Refusal) (ops : List PortOperand) : Prop :=
  ∃ (before after : List PortOperand) (bad : PortOperand), ops = before ++ bad :: after ∧
    (∀ p ∈ before, p.Fits rs) ∧ bad.BadFor rs why

section
variable {rs : List Result} {why : Refusal}

theorem not_firstBad_nil : ¬ FirstBad rs why [] := by
  simp [FirstBad]

theorem firstBad_cons (p : PortOperand) (ops : List PortOperand) :
    FirstBad rs why (p :: ops) ↔ p.BadFor rs why ∨ (p.Fits rs ∧ FirstBad rs why ops) := by
  constructor
  · rintro ⟨before, after, bad, hops, hbefore, hbad⟩
    cases before with
    | nil => cases hops; exact .inl hbad
    | cons q before =>
      cases hops
      obtain ⟨hq, hbefore⟩ := List.forall_mem_cons.mp hbefore
      exact .inr ⟨hq, before, after, bad, rfl, hbefore, hbad⟩
  · rintro (hbad | ⟨hp, before, after, bad, rfl, hbefore, hbad⟩)
    · exact ⟨[], ops, p, rfl, by simp, hbad⟩
    · exact ⟨p :: before, after, bad, rfl, List.forall_mem_cons.mpr ⟨hp, hbefore⟩, hbad⟩

theorem PortOperand.badFor_iff (p : PortOperand) : p.BadFor rs why ↔ operandValue rs p.operand = .error why ∨
    (why = .operandRange ∧ ∃ v, operandValue rs p.operand = .ok v ∧ (v < p.least ∨ p.greatest < v)) := by
  rw [operandValue_error_iff, PortOperand.BadFor]

/-- An operand stands on its port unless there is a reason against it. -/
theorem PortOperand.fits_iff (p : PortOperand) : p.Fits rs ↔ ∀ why, ¬ p.BadFor rs why := by
  simp only [PortOperand.badFor_iff, PortOperand.Fits]
  cases operandValue rs p.operand <;> simp

/-- The check of one operand, before the checks of the others. -/
theorem bind_error_iff_firstBad_cons {α β : Type} {x : Except Refusal α} {f : α → Except Refusal β} {p : PortOperand}
    {ops : List PortOperand} (hx : ∀ why, x = .error why ↔ p.BadFor rs why)
    (hf : ∀ a, f a = .error why ↔ FirstBad rs why ops) : x >>= f = .error why ↔ FirstBad rs why (p :: ops) := by
  have hfits : (∃ a, x = .ok a) ↔ p.Fits rs := by
    rw [PortOperand.fits_iff]
    simp only [← hx]
    cases x <;> simp
  rw [bind_eq_error_iff, firstBad_cons, hx, ← hfits]
  simp only [hf, exists_and_right]

theorem signedOperand_32_error_iff (o : Operand) (why : Refusal) :
    signedOperand 32 rs o = .error why ↔ (PortOperand.word o).BadFor rs why := by
  rw [signedOperand_error_iff, PortOperand.badFor_iff]
  rfl

theorem signedOperand_16_error_iff (o : Operand) (why : Refusal) :
    signedOperand 16 rs o = .error why ↔ (PortOperand.sample o).BadFor rs why := by
  rw [signedOperand_error_iff, PortOperand.badFor_iff]
  rfl

theorem bitOperand_error_iff_badFor (o : Operand) (why : Refusal) :
    bitOperand rs o = .error why ↔ (PortOperand.pin o).BadFor rs why := by
  rw [bitOperand_error_iff, PortOperand.badFor_iff]
  rfl

theorem decodeAtIssue_encode_error_iff (i : Instr) : decodeAtIssue (encode i) = .error why ↔ FirstBad rs why [] := by
  simp [decodeAtIssue_encode, not_firstBad_nil]

/-- A textual line is refused for its first bad operand. -/
theorem issue_error_iff_firstBad {l : Line} (hl : ∀ c, l ≠ .command c) :
    issue rs l = .error why ↔ FirstBad rs why l.operands := by
  have word {β : Type} {f : PortWord → Except Refusal β} {ops : List PortOperand} (o : Operand) :=
    bind_error_iff_firstBad_cons (rs := rs) (why := why) (f := f) (ops := ops) (signedOperand_32_error_iff o)
  have done (i : Instr) := decodeAtIssue_encode_error_iff (rs := rs) (why := why) i
  rw [issue_eq_bind]
  cases l with simp only [present, bind_assoc, pure_bind]
  | fxmul a b => exact word a fun _ => word b fun _ => done _
  | scale x inMin inMax outMin outMax =>
    exact word x fun _ => word inMin fun _ => word inMax fun _ => word outMin fun _ => word outMax fun _ => done _
  | raw2hue raw => exact bind_error_iff_firstBad_cons (signedOperand_16_error_iff raw) fun _ => done _
  | raw2unit raw => exact bind_error_iff_firstBad_cons (signedOperand_16_error_iff raw) fun _ => done _
  | convert huePrime sat val => exact word huePrime fun _ => word sat fun _ => word val fun _ => done _
  | debounce sw => exact bind_error_iff_firstBad_cons (bitOperand_error_iff_badFor sw) fun _ => done _
  | command c => exact absurd rfl (hl c)

end

/-- Settles O60: what the lemma on refused lines says, with its terms written out. -/
theorem badLineRefusedForItsFirstBadOperand : Obligations.BadLineRefusedForItsFirstBadOperand :=
  fun _ _ _ hl => issue_error_iff_firstBad hl

end Sys2Proof.Machine
end

section
/-!
Well-formed lines (R65, R71). A well-formed operand's name is bound, and its numeral lies in its port's range, so the first bad
operand of a well-formed line can only be a name whose result is out of range.
-/
namespace Sys2Proof.Machine

/-- The operand is a numeral that its port can carry, or a name for one of `bound` results. -/
def PortOperand.WellFormed (bound : Nat) (p : PortOperand) : Prop :=
  match p.operand with
  | .num v => p.least ≤ v ∧ v ≤ p.greatest
  | .name back => back < bound

theorem PortOperand.wellFormed_iff (p : PortOperand) {fits : Int → Bool}
    (hfits : ∀ v, fits v = true ↔ p.least ≤ v ∧ v ≤ p.greatest) (bound : Nat) :
    p.operand.wellFormed fits bound = true ↔ p.WellFormed bound := by
  rw [PortOperand.WellFormed]
  cases p.operand <;> simp [Operand.wellFormed, hfits]

theorem Line.operands_wellFormed {l : Line} {bound : Nat} (h : l.wellFormed bound = true) :
    ∀ p ∈ l.operands, p.WellFormed bound := by
  have word (o : Operand) : o.wellFormed (inSigned 32) bound = true ↔ (PortOperand.word o).WellFormed bound :=
    (PortOperand.word o).wellFormed_iff (fun v => by simp [inSigned, PortOperand.word]; omega) bound
  have sample (o : Operand) : o.wellFormed (inSigned 16) bound = true ↔ (PortOperand.sample o).WellFormed bound :=
    (PortOperand.sample o).wellFormed_iff (fun v => by simp [inSigned, PortOperand.sample]; omega) bound
  have pin (o : Operand) : o.wellFormed inBit bound = true ↔ (PortOperand.pin o).WellFormed bound :=
    (PortOperand.pin o).wellFormed_iff (fun v => by simp [inBit, PortOperand.pin]) bound
  cases l with
  | command c => simp [Line.operands]
  | _ => simpa [Line.wellFormed, Line.operands, word, sample, pin, and_assoc] using h

section
variable {rs : List Result} {p : PortOperand}

theorem PortOperand.WellFormed.not_badFor_unboundName (h : p.WellFormed rs.length) : ¬ p.BadFor rs .unboundName := by
  rintro (⟨-, back, hname, hback⟩ | ⟨hwhy, -⟩)
  · rw [PortOperand.WellFormed, hname] at h
    exact absurd h (by omega)
  · cases hwhy

/-- With no name to bind, a well-formed operand is a numeral that its port can carry. -/
theorem PortOperand.WellFormed.fits (h : p.WellFormed 0) : p.Fits rs := by
  rw [PortOperand.WellFormed] at h
  rw [PortOperand.Fits]
  cases hop : p.operand with
  | num v => exact ⟨v, rfl, by simpa [hop] using h⟩
  | name back => simp [hop] at h

theorem FirstBad.exists_badFor {why : Refusal} {ops : List PortOperand} (h : FirstBad rs why ops) :
    ∃ p ∈ ops, p.BadFor rs why := by
  obtain ⟨before, after, bad, rfl, -, hbad⟩ := h
  exact ⟨bad, by simp, hbad⟩

end

/-- Settles O5: a refused textual line has a bad operand, which a well-formed line has not for that reason; a command is
refused for its code alone. -/
theorem wellFormedLineNotRefusedForNameOrNumeral : Obligations.WellFormedLineNotRefusedForNameOrNumeral := by
  refine ⟨fun rs l hwf hissue => ?_, fun rs l hwf hl => ?_⟩
  · by_cases hl : ∀ c, l ≠ .command c
    · obtain ⟨p, hp, hbad⟩ := ((issue_error_iff_firstBad hl).mp hissue).exists_badFor
      exact (Line.operands_wellFormed hwf p hp).not_badFor_unboundName hbad
    · obtain ⟨c, rfl⟩ : ∃ c, l = .command c := by simpa using hl
      obtain ⟨-, hwhy⟩ := (decodeAtIssue_error_iff c _).mp hissue
      cases hwhy
  · cases hissue : issue rs l with
    | ok i => exact ⟨i, rfl⟩
    | error why =>
      obtain ⟨p, hp, hbad⟩ := ((issue_error_iff_firstBad hl).mp hissue).exists_badFor
      exact absurd hbad (p.fits_iff.mp (Line.operands_wellFormed hwf p hp).fits why)

end Sys2Proof.Machine
end

section
/-! The laws of `fxmul` and of `scale_linear` (R89, R98): both round a product, and both roundings are monotone. -/
namespace Sys2Proof.Machine

theorem fxmul_two (a : Int) : fxmul a 65536 = 2 * a := by
  rw [fxmul_eq_ediv]
  omega

theorem fxmul_le_fxmul {a a' b : Int} (hb : 0 ≤ b) (ha : a ≤ a') : fxmul a b ≤ fxmul a' b := by
  rw [fxmul_eq_ediv, fxmul_eq_ediv]
  exact Int.ediv_le_ediv (by decide) (mul_le_mul_of_nonneg_right ha hb)

/-- Settles O13: the laws one by one; against associativity, one count halved and then doubled is 0, but times a half doubled
first it is 1. -/
theorem fxmulLaws : Obligations.FxmulLaws :=
  ⟨fxmul_comm, fun a => ⟨fxmul_one a, fxmul_zero a, fxmul_two a⟩, fun _ _ => fxmul_mem_of_factor_le_one,
    fun _ _ _ => fxmul_le_fxmul, by decide, 1, 16384, 65536, by decide⟩

/-- Settles O17: the products grow with `x`, and truncation by a positive span keeps their order. -/
theorem scaleMonotone : Obligations.ScaleMonotone := by
  intro x x' inMin inMax outMin outMax hin hout hx
  have hprod : (x - inMin) * (outMax - outMin) ≤ (x' - inMin) * (outMax - outMin) :=
    mul_le_mul_of_nonneg_right (by omega) (by omega)
  rw [scaleLinear_eq_tdiv, scaleLinear_eq_tdiv]
  exact Int.add_le_add_right (Int.tdiv_le_tdiv (by omega) hprod) outMin

end Sys2Proof.Machine
end

section
/-!
The ranges of RAW2HUE and RAW2UNIT (R109, R110, R114), and the samples at sector boundaries (R108). For nominal samples both
results lie between those of the samples 0 and 4095, since the scaling is monotone (O17).
-/
namespace Sys2Proof.Machine

theorem raw2hue_le_raw2hue {raw raw' : Int} (h : raw ≤ raw') : raw2hue raw ≤ raw2hue raw' := by
  have hdeg : rawDegrees raw ≤ rawDegrees raw' := scaleMonotone _ _ _ _ _ _ (by decide) (by decide) h
  exact Int.tdiv_le_tdiv (by decide) (mul_le_mul_of_nonneg_right hdeg (by decide))

theorem raw2unit_le_raw2unit {raw raw' : Int} (h : raw ≤ raw') : raw2unit raw ≤ raw2unit raw' :=
  scaleMonotone _ _ _ _ _ _ (by decide) (by decide) h

theorem raw2hue_mem_of_nominal {raw : Int} (lo : 0 ≤ raw) (hi : raw ≤ 4095) :
    -5461 ≤ raw2hue raw ∧ raw2hue raw ≤ 196608 :=
  ⟨raw2hue_le_raw2hue lo, raw2hue_le_raw2hue hi⟩

theorem raw2unit_mem_of_nominal {raw : Int} (lo : 0 ≤ raw) (hi : raw ≤ 4095) :
    -989 ≤ raw2unit raw ∧ raw2unit raw ≤ 32768 :=
  ⟨raw2unit_le_raw2unit lo, raw2unit_le_raw2unit hi⟩

/-- One degree is worth more than one count, so truncation cannot reach a boundary from other degrees. -/
theorem dvd_raw2hue_iff (raw : Int) : 32768 ∣ raw2hue raw ↔ 60 ∣ rawDegrees raw := by
  have hhue := tdiv_bounds (n := rawDegrees raw * 32768) (d := 60) (by decide)
  rw [raw2hue_eq_tdiv_rawDegrees]
  omega

/-- Settles O23: the result is the exact value of `raw2hue`, and the products follow from the ranges of their factors. -/
theorem raw2hueRange : Obligations.Raw2hueRange := by
  intro raw s
  obtain ⟨y, hy, hret⟩ := exec_raw2hue_returns raw
  obtain ⟨degLo, degHi⟩ := rawDegrees_mem raw
  obtain ⟨lo, hi⟩ := raw2hue_mem raw
  have rawLo := BitVec.le_toInt raw
  have rawHi := BitVec.toInt_lt (x := raw)
  refine ⟨y, hret s, ?_⟩
  rw [hy]
  exact ⟨degLo, degHi, lo, hi, abs_lt.mpr (by omega), abs_lt.mpr (by omega), raw2hue_mem_of_nominal⟩

/-- Settles O25: a boundary is a multiple of 60 degrees, and both ends of the range are exact in the sample. -/
theorem raw2hueBoundaries : Obligations.Raw2hueBoundaries := by
  refine ⟨dvd_raw2hue_iff, fun raw => ?_⟩
  have lo := raw2hue_neg_iff raw
  have hi := lt_raw2hue_iff raw
  omega

/-- Settles O27: the result is the exact value of `raw2unit`, and the product follows from the range of the sample. -/
theorem raw2unitRange : Obligations.Raw2unitRange := by
  intro raw s
  obtain ⟨y, hy, hret⟩ := exec_raw2unit_returns raw
  obtain ⟨lo, hi⟩ := raw2unit_mem raw
  have rawLo := BitVec.le_toInt raw
  have rawHi := BitVec.toInt_lt (x := raw)
  refine ⟨y, hret s, ?_⟩
  rw [hy]
  exact ⟨lo, hi, abs_le.mpr (by omega), raw2unit_mem_of_nominal⟩

end Sys2Proof.Machine
end

section
/-!
The channels of CONVERT (R136, R138, R140). The components of a sector are the chroma, the second component and 0 in some order,
and the chroma plus the offset is `V`: every channel is `V`, the second component plus the offset, or the offset.
-/
namespace Sys2Proof.Machine

@[simp] theorem chroma_zero_val (sat : Int) : chroma sat 0 = 0 :=
  zero_fxmul sat

@[simp] theorem secondComponent_zero_val (hp sat : Int) : secondComponent hp sat 0 = 0 := by
  rw [secondComponent, chroma_zero_val, zero_fxmul]

theorem sectorOf_ne_outOfRange {hp : Int} (lo : 0 ≤ hp) (hi : hp ≤ 196608) : sectorOf hp ≠ .outOfRange := by
  refine (apply_sectorOf (· ≠ .outOfRange) hp).mpr ?_
  grind

/-- The components of a colour, with the two that every sector has. -/
theorem sectorColor_components (k : Sector) (chr x : Int) : ∃ r g b : Int, sectorColor k chr x = (r, g, b) ∧
    (∀ v ∈ [r, g, b], v = chr ∨ v = x ∨ v = 0) ∧ (k ≠ .outOfRange → chr ∈ [r, g, b] ∧ 0 ∈ [r, g, b]) := by
  cases k <;> exact ⟨_, _, _, rfl, by simp, by simp⟩

/-- The channels, with the two that every hue in range has. -/
theorem convertChannels_values (hp sat val : Int) : ∃ r g b : Int, (r, g, b) = convertChannels hp sat val ∧
    (∀ ch ∈ [r, g, b],
      ch = val ∨ ch = secondComponent hp sat val + colorOffset sat val ∨ ch = colorOffset sat val) ∧
    (0 ≤ hp → hp ≤ 196608 → val ∈ [r, g, b] ∧ colorOffset sat val ∈ [r, g, b]) := by
  obtain ⟨r, g, b, hcol, hall, hboth⟩ :=
    sectorColor_components (sectorOf hp) (chroma sat val) (secondComponent hp sat val)
  have hval : chroma sat val + colorOffset sat val = val := add_sub_cancel _ _
  refine ⟨_, _, _, (convertChannels_of_sectorColor hcol).symm, ?_, fun lo hi => ?_⟩
  · simp only [List.mem_cons, List.not_mem_nil, or_false, forall_eq_or_imp, forall_eq] at hall ⊢
    omega
  · have := hboth (sectorOf_ne_outOfRange lo hi)
    simp only [List.mem_cons, List.not_mem_nil, or_false] at this ⊢
    omega

/-- Settles O33: without value chroma, second component and offset are all 0. -/
theorem zeroValueIsBlack : Obligations.ZeroValueIsBlack := by
  intro huePrime sat s
  have hoff : colorOffset sat.toInt (0 : PortWord).toInt = 0 := by simp [colorOffset]
  refine exec_convert_of_eq ((convert_of_sectorColor_zero (by simp)).trans ?_) s
  rw [hoff]
  decide

/-- A channel from 0 to 1.0 is scaled to a byte from 0 to 255. -/
theorem channelByte_toNat_of_mem {ch : Int} (lo : 0 ≤ ch) (hi : ch ≤ 32768) :
    ((channelByte ch).toNat : Int) = (ch * 255).tdiv 32768 := by
  have hq := tdiv_bounds (n := ch * 255) (d := 32768) (by decide)
  rw [tdiv] at hq
  rw [channelByte_toNat, Int.emod_eq_of_lt] <;> omega

/-- Settles O40: the second component lies between 0 and the chroma, so every channel lies between the offset and `V`. -/
theorem inRangeColourDoesNotWrap : Obligations.InRangeColourDoesNotWrap := by
  intro hp sat val hlo hhi hs hs' hv hv'
  obtain ⟨r, g, b, hch, hall, hboth⟩ := convertChannels_values hp sat val
  obtain ⟨hchr, hchr', -⟩ := chroma_mem hs hs' hv hv'
  obtain ⟨hdist, hdist'⟩ := hueDist_mem hp
  have hx : 0 ≤ secondComponent hp sat val ∧ secondComponent hp sat val ≤ chroma sat val :=
    fxmul_mem_of_factor_le_one hchr hdist hdist'
  have hoff : colorOffset sat val = val - chroma sat val := rfl
  refine ⟨r, g, b, hch, fun ch hmem => ?_, hboth hlo hhi⟩
  have hrange : colorOffset sat val ≤ ch ∧ ch ≤ val := by
    have := hall ch hmem
    omega
  exact ⟨hrange.1, hrange.2, channelByte_toNat_of_mem (by omega) (by omega)⟩

/-- A factor from 0 to 1.0 takes a number no further from 0. -/
theorem abs_fxmul_le {a b : Int} (hb : 0 ≤ b) (hb' : b ≤ 32768) : |fxmul a b| ≤ |a| := by
  obtain ha | ha := le_or_gt 0 a
  · obtain ⟨lo, hi⟩ := fxmul_mem_of_factor_le_one ha hb hb'
    rwa [abs_of_nonneg lo, abs_of_nonneg ha]
  · obtain rfl | hb := hb.eq_or_lt
    · simp
    · obtain ⟨lo, hi⟩ := fxmul_mem_of_neg ha hb hb'
      rw [abs_of_neg hi, abs_of_neg ha]
      omega

theorem abs_toInt_mul_toInt_le (x y : PortWord) : |x.toInt * y.toInt| ≤ 2 ^ 62 := by
  have bound (z : PortWord) : |z.toInt| ≤ 2 ^ 31 := abs_le.mpr ⟨BitVec.le_toInt z, BitVec.toInt_lt.le⟩
  calc |x.toInt * y.toInt| = |x.toInt| * |y.toInt| := abs_mul _ _
    _ ≤ 2 ^ 31 * 2 ^ 31 := mul_le_mul (bound x) (bound y) (abs_nonneg _) (by decide)
    _ = 2 ^ 62 := by norm_num

theorem abs_chroma_le (sat val : PortWord) : |chroma sat.toInt val.toInt| ≤ 2 ^ 47 := by
  have hprod := abs_le.mp (abs_toInt_mul_toInt_le val sat)
  have hfloor := fxmul_mul_le_and_lt val.toInt sat.toInt
  rw [chroma]
  exact abs_le.mpr (by omega)

/-- Settles O41: the products are bounded by their factors' bounds, and each channel is one of three bounded sums. -/
theorem convertIntermediatesFit : Obligations.ConvertIntermediatesFit := by
  intro huePrime sat val
  obtain ⟨r, g, b, hch, hall, -⟩ := convertChannels_values huePrime.toInt sat.toInt val.toInt
  obtain ⟨hdist, hdist'⟩ := hueDist_mem huePrime.toInt
  have hchr := abs_chroma_le sat val
  have hx : |secondComponent huePrime.toInt sat.toInt val.toInt| ≤ 2 ^ 47 := (abs_fxmul_le hdist hdist').trans hchr
  have hval : -2 ^ 31 ≤ val.toInt ∧ val.toInt < 2 ^ 31 := ⟨BitVec.le_toInt val, BitVec.toInt_lt⟩
  have hoff : colorOffset sat.toInt val.toInt = val.toInt - chroma sat.toInt val.toInt := rfl
  have hprod : |chroma sat.toInt val.toInt * hueDist huePrime.toInt| ≤ 2 ^ 62 := by
    rw [abs_mul, abs_of_nonneg hdist]
    exact (mul_le_mul hchr hdist' hdist (by decide)).trans (by norm_num)
  refine ⟨r, g, b, hch, abs_toInt_mul_toInt_le val sat, hchr, hprod, ?_⟩
  rw [abs_le] at hchr hx
  simp only [abs_lt]
  refine ⟨by omega, fun ch hmem => ?_⟩
  have := hall ch hmem
  omega

end Sys2Proof.Machine
end

section
/-!
What runs of DEBOUNCE leave in `HIST` and `enabled` (R24, R25, R27, R153, R161, R207), from the bits of the shifted history that
`getLsbD_foldl_histShift` gives.
-/
namespace Sys2Proof.Machine

/-- Settles O42: `enabled` is the masked compare of the block's own twelve bits. -/
theorem enabledIsAllOnes : Obligations.EnabledIsAllOnes :=
  fun s => histEnabled_iff le_rfl s.hist

/-- Settles O47: bit by bit, what the run left in the history. -/
theorem historyHoldsSamples : Obligations.HistoryHoldsSamples := by
  intro s samples
  obtain ⟨t, hrun, hhist, -⟩ := debounceAll_completes samples s
  exact ⟨t, hrun, fun k hk => hhist ▸ getLsbD_foldl_histShift s.hist samples hk⟩

/-- From a history of zeros fewer than twelve samples leave a zero at the place above them. -/
theorem histEnabled_foldl_zero_of_short {w : Nat} (hw : 12 ≤ w) {samples : List Pin} (hlen : samples.length < 12) :
    histEnabled (samples.foldl histShift (0 : BitVec w)) = false := by
  refine Bool.eq_false_iff.mpr fun high => ?_
  have bit := (histEnabled_iff hw _).mp high samples.length hlen
  rw [getLsbD_foldl_histShift _ _ (by omega)] at bit
  simp at bit

/-- Settles O46: from twelve samples on the history does not matter; before that, the zeros of reset still stand in it. -/
theorem debounceClosedForm : Obligations.DebounceClosedForm := by
  refine ⟨fun s samples hlen => ?_, fun samples => ?_⟩
  · obtain ⟨t, hrun, hhist, -⟩ := debounceAll_completes samples s
    refine ⟨t, hrun, ?_⟩
    rw [State.enabled, hhist, histEnabled_foldl_iff le_rfl s.hist hlen]
  · obtain ⟨t, hrun, hhist, -⟩ := debounceAll_completes samples State.reset
    refine ⟨t, hrun, ?_⟩
    rw [State.enabled, hhist, State.reset_hist]
    by_cases hlen : 12 ≤ samples.length
    · rw [histEnabled_foldl_iff le_rfl 0 hlen, and_iff_right hlen]
    · rw [histEnabled_foldl_zero_of_short le_rfl (not_le.mp hlen)]
      simp [hlen]

/-- `n` high samples are `n` ones below the history. -/
theorem getLsbD_foldl_replicate_one {w : Nat} (h : BitVec w) (n : Nat) {k : Nat} (hk : k < w) :
    ((List.replicate n 1#1).foldl histShift h).getLsbD k = (decide (k < n) || h.getLsbD (k - n)) := by
  rw [getLsbD_foldl_histShift h _ hk]
  by_cases hkn : k < n <;> simp [hkn]

/-- Settles O48: the low bit at place `k` is moved to place `k + n`, which must leave the twelve for `enabled` to rise. -/
theorem enabledRiseTime : Obligations.EnabledRiseTime := by
  intro s k n hk hones hzero
  obtain ⟨t, hrun, hhist, -⟩ := debounceAll_completes (List.replicate n 1#1) s
  refine ⟨t, hrun, ?_⟩
  rw [State.enabled, hhist, histEnabled_iff le_rfl]
  constructor
  · intro high
    by_contra hlt
    have bit := high (k + n) (by omega)
    rw [getLsbD_foldl_replicate_one _ _ (by omega), Nat.add_sub_cancel, hzero] at bit
    simp at bit
  · intro hn j hj
    rw [getLsbD_foldl_replicate_one _ _ hj]
    by_cases hjn : j < n
    · simp [hjn]
    · rw [hones (j - n) (by omega), Bool.or_true]

theorem histShift_setWidth {w : Nat} (hw : 12 ≤ w) (wide : BitVec w) (sw : Pin) :
    (histShift wide sw).setWidth 12 = histShift (wide.setWidth 12) sw := by
  refine BitVec.eq_of_getLsbD_eq fun k hk => ?_
  have hkw : k < w := by omega
  cases k with
  | zero => simp [histShift_zero, hkw, -BitVec.getLsbD_eq_getElem]
  | succ k => simp [histShift_succ, hkw, hk, -BitVec.getLsbD_eq_getElem, show k < 12 by omega]

theorem histEnabled_setWidth {w : Nat} (hw : 12 ≤ w) (wide : BitVec w) :
    histEnabled (wide.setWidth 12) = histEnabled wide := by
  rw [Bool.eq_iff_iff, histEnabled_iff le_rfl, histEnabled_iff hw]
  exact forall₂_congr fun k hk => by simp [hk, BitVec.getLsbD_setWidth, -BitVec.getLsbD_eq_getElem]

/-- Settles O49: the low twelve bits of the wide history shift as the narrow one does, and `enabled` sees no others. -/
theorem historyWidthIndependence : Obligations.HistoryWidthIndependence := by
  rintro w wide _ samples hw rfl
  induction samples generalizing wide with
  | nil => rfl
  | cons sw rest ih =>
    rw [enabledTrace, enabledTrace, ih, histShift_setWidth hw, ← histEnabled_setWidth hw, histShift_setWidth hw]

/-- With at most eleven flags returned the invariant leaves the top bit of `HIST` low. -/
theorem State.Inv.enabled_eq_false {s : State} (hs : s.Inv) (hlen : s.flags.length ≤ 11) : s.enabled = false := by
  obtain ⟨-, -, hhist⟩ := hs
  have hsmall : s.hist.toNat < 2 ^ 11 := hhist.trans_le (Nat.pow_le_pow_right (by decide) hlen)
  refine Bool.eq_false_iff.mpr fun high => ?_
  have := (histEnabled_iff_toNat s.hist).mp high
  omega

/-- Settles O56: the first part is the invariant's, the second the closed form from reset. -/
theorem enabledLowForElevenSamples : Obligations.EnabledLowForElevenSamples := by
  refine ⟨fun s hs => hs.enabled_eq_false, fun samples hlen => ?_⟩
  obtain ⟨-, hreset⟩ := debounceClosedForm
  obtain ⟨t, hrun, ht⟩ := hreset samples
  exact ⟨t, hrun, by simpa [hlen] using ht⟩

end Sys2Proof.Machine
end

section
/-! What every operation leaves alone, and the order of a pure operation and a DEBOUNCE (R23, R49). -/
namespace Sys2Proof.Machine

/-- Settles O51: an operation adds its result, and only DEBOUNCE writes `HIST`, of which `enabled` is made. -/
theorem operationFrame : Obligations.OperationFrame := by
  intro i s t h
  have hframe : t.program = s.program ∧ ∃ r, t.results = r :: s.results := by
    obtain ⟨v, rfl⟩ | ⟨hp, sat, val, rfl⟩ | ⟨sw, -, rfl⟩ := exec_next_cases h <;> exact ⟨rfl, _, rfl⟩
  obtain ⟨hprogram, hresults⟩ := hframe
  refine ⟨hprogram, hresults, fun hi => ?_⟩
  have hhist := exec_hist_of_not_debounce hi h
  exact ⟨hhist, congrArg histEnabled hhist⟩

/-- Settles O52: a pure operation's result is the same in every state, and DEBOUNCE's history and flag are made of `HIST`. -/
theorem pureOperationsCommute : Obligations.PureOperationsCommute := by
  intro i sw s t hi h
  obtain ⟨r, hr⟩ | ⟨r, hr⟩ := exec_pure_of_not_debounce hi <;> rw [hr] at h <;> cases h
  exact ⟨_, _, _, r, _, exec_debounce sw _, exec_debounce sw s, hr _, rfl, rfl, rfl, rfl⟩

end Sys2Proof.Machine
end

section
/-! The step (R63, R73, R192, log entries 3 and 5): what it makes of the first line, and of an instruction placed by its bits. -/
namespace Sys2Proof.Machine

theorem step_of_issue_ok {s : State} {l : Line} {rest : List Line} {i : Instr} (hprog : s.program = l :: rest)
    (hissue : issue s.results l = .ok i) : step s = exec i (s.withProgram rest) := by
  simp only [step, hprog, hissue]

theorem step_of_issue_error {s : State} {l : Line} {rest : List Line} {r : Refusal} (hprog : s.program = l :: rest)
    (hissue : issue s.results l = .error r) : step s = .refused r := by
  simp only [step, hprog, hissue]

/-- Settles O2: without a first line the step has nothing to issue. -/
theorem idleBlockHoldsState : Obligations.IdleBlockHoldsState := by
  intro s hprog
  simp only [step, hprog]

/-- Settles O1: the step by what its first line issues; a command by its port patterns issues what it decodes to. -/
theorem stepRunsDecodedInstruction : Obligations.StepRunsDecodedInstruction :=
  ⟨fun _ _ _ _ => step_command_of_decode_ok, fun _ _ _ _ => step_of_issue_ok, fun _ _ _ _ => step_of_issue_error⟩

theorem decodeTableWord_eq_some_iff (nbits w : Nat) (i : Instr) :
    decodeTableWord nbits w = some i ↔ decode (tableCommand nbits w) = .ok i := by
  rw [decodeTableWord]
  cases decode (tableCommand nbits w) <;> simp [Except.toOption]

/-- Settles O3: the placed command stands at the head of the program, which the step takes off again. -/
theorem fetchWordRunsTableInstruction : Obligations.FetchWordRunsTableInstruction := by
  intro s nbits w i hi
  exact step_command_of_decode_ok rfl ((decodeTableWord_eq_some_iff nbits w i).mp hi)

/-- Settles O7: the codes and the operand ports are read off the six commands. -/
theorem specCommandsDecode : Obligations.SpecCommandsDecode :=
  ⟨rfl, rfl, rfl, rfl, rfl, rfl⟩

end Sys2Proof.Machine
end

section
/-!
TICK (R72, R170, R173). Its five lines are issued one after another, each with the results of those before it on top of the
list, past which `Operand.after` makes the operands of the TICK line reach.
-/
namespace Sys2Proof.Machine

/-- An operand written for `newer.length` lines further down is worth there what it was worth. -/
theorem operandValue_after (newer rs : List Result) (o : Operand) :
    operandValue (newer ++ rs) (o.after newer.length) = operandValue rs o := by
  cases o with
  | num v => rfl
  | name back =>
    rw [Operand.after, operandValue, operandValue, List.getElem?_append_right (by omega), Nat.add_sub_cancel]

theorem run_succ_of_issue {s t : State} {l : Line} {rest : List Line} {i : Instr} (k : Nat)
    (hprog : s.program = l :: rest) (hissue : issue s.results l = .ok i)
    (hexec : exec i (s.withProgram rest) = .next t) : core.run (k + 1) s = core.run k t := by
  have hstep : core.step s = .next t := (step_of_issue_ok hprog hissue).trans hexec
  simp only [Host.Core.run, hstep]

/-- Settles O59: the five operations in turn, each issued with its operand's value and completing with its exact result. -/
theorem tickRunsFiveOperations : Obligations.TickRunsFiveOperations := by
  intro s oH oS oV oP rawH rawS rawV sw rest hprog hH hS hV hP
  obtain ⟨-, -, hue, unit, conv, deb, -⟩ := textualLineDrivesItsPorts
  obtain ⟨h, hh, execH⟩ := exec_raw2hue_returns rawH
  obtain ⟨u, hu, execU⟩ := exec_raw2unit_returns rawS
  obtain ⟨v, hv, execV⟩ := exec_raw2unit_returns rawV
  have hcol : convert h.toInt u.toInt v.toInt = (tick s.hist rawH rawS rawV sw).2.1 := by rw [hh, hu, hv]; rfl
  refine ⟨h, u, v, hh, hu, hv, ?_⟩
  calc core.run 5 s
    _ = core.run 4 _ := run_succ_of_issue 4 hprog ((hue _ _ _).mpr ⟨rawH, hH, rfl⟩) (execH _)
    _ = core.run 3 _ := run_succ_of_issue 3 rfl
      ((unit _ _ _).mpr ⟨rawS, (operandValue_after [.y h] _ oS).trans hS, rfl⟩) (execU _)
    _ = core.run 2 _ := run_succ_of_issue 2 rfl
      ((unit _ _ _).mpr ⟨rawV, (operandValue_after [.y u, .y h] _ oV).trans hV, rfl⟩) (execV _)
    _ = core.run 1 _ := run_succ_of_issue 1 rfl
      ((conv _ _ _ _ _).mpr ⟨h, u, v, rfl, rfl, rfl, rfl⟩) (exec_convert_of_eq hcol _)
    _ = core.run 0 _ := run_succ_of_issue 0 rfl
      ((deb _ _ _).mpr ⟨sw, (operandValue_after [.q _, .y v, .y u, .y h] _ oP).trans hP, rfl⟩) (exec_debounce sw _)

end Sys2Proof.Machine
end
